-- ==== Sys2Proof/Word.lean ====
section
/-! DEFINITION. The widths and the one data type of Ib_Task CORE: 32-bit words (R7), the fields of a command word (R81), the fixed-length vectors (R4) and the variable-length BitVector (R100). -/

namespace Sys2Proof

/-- R7: a word is 32 bits, bit 31 the most significant. -/
abbrev Word := BitVec 32

/-- R54: one byte of a message. -/
abbrev Byte := BitVec 8

/-- R51: a 7-bit index of the register space. -/
abbrev PortIndex := BitVec 7

/-- R81: a 4-bit register field of a command word; only 0..7 name a register (R85). -/
abbrev RegNum := BitVec 4

/-- R82: the 12-bit immediate `IMM`. -/
abbrev Imm := BitVec 12

/-- R82: an 8-bit slice bound, `START` or `END`. -/
abbrev Bound := BitVec 8

/-- R150: a block, a BitVector of length `B = 64`. Position 0 is the most significant bit (R6). -/
abbrev Block := BitVec 64

/-- R150: half a block, a BitVector of length `H = 32`. -/
abbrev Half := BitVec 32

/-- R100: a BitVector, "a pair of a length `n` and a fixed-width value of `n` bits". `bits` is the integer view of R6,
so position `i` is `bits.getMsbD i`. There are no bits beyond the length (R21). -/
structure Vec where
  len : Nat
  bits : BitVec len
deriving DecidableEq, Repr

end Sys2Proof
end

