-- ==== Sys2Proof/Syntax.lean ====
section
/-! DEFINITION. The 18 commands of R83, one constructor each, with exactly the fields the row uses. Register operands keep the 4-bit field of the format (R81); WellFormed.lean says which of them name a register. -/

namespace Sys2Proof

/-- R83: the commands of CORE, in the table's order. -/
inductive Instr where
  /-- `VZERO vd, len` (R111). -/
  | vzero (vd : RegNum) (len : Imm)
  /-- `VSHR vd, va, n` (R112). -/
  | vshr (vd va : RegNum) (n : Imm)
  /-- `VSHL vd, va, n` (R113). -/
  | vshl (vd va : RegNum) (n : Imm)
  /-- `VXOR vd, va, vb` (R114). -/
  | vxor (vd va vb : RegNum)
  /-- `VCAT vd, va, vb` (R115). -/
  | vcat (vd va vb : RegNum)
  /-- `VSLICE vd, va, start, end` (R116). -/
  | vslice (vd va : RegNum) (start stop : Bound)
  /-- `LDKEY va` (R133). -/
  | ldkey (va : RegNum)
  /-- `SUBKEY vd, r` (R134). -/
  | subkey (vd : RegNum) (r : Imm)
  /-- `FRND vd, va, vb` (R135). -/
  | frnd (vd va vb : RegNum)
  /-- `BSPLIT va` (R159). -/
  | bsplit (va : RegNum)
  /-- `RNDE r` (R160). -/
  | rnde (r : Imm)
  /-- `RNDD r` (R161). -/
  | rndd (r : Imm)
  /-- `BJOIN vd` (R162). -/
  | bjoin (vd : RegNum)
  /-- `ENC vd, va` (R163). -/
  | enc (vd va : RegNum)
  /-- `DEC vd, va` (R164). -/
  | dec (vd va : RegNum)
  /-- `LDIV va` (R190). -/
  | ldiv (va : RegNum)
  /-- `MSTART` (R191). -/
  | mstart
  /-- `MBLK vd, va` (R192). -/
  | mblk (vd va : RegNum)
deriving DecidableEq, Repr

/-- R90: the pseudo-instruction `VMOV vd, va`, a copy: `VSHR vd, va, 0`. -/
def Instr.vmov (vd va : RegNum) : Instr := .vshr vd va 0

/-- R90: the pseudo-instruction `VTRUNC vd, va, n`: `VSLICE vd, va, 0, n`. -/
def Instr.vtrunc (vd va : RegNum) (n : Bound) : Instr := .vslice vd va 0 n

end Sys2Proof
end

