-- ==== Sys2Proof/WellFormed.lean ====
section
/-! DEFINITION. Which terms of `Instr` are commands: every register field an instruction uses names one of V0..V7 (R81, R85). Immediates and slice bounds have the width of their field, so every value of theirs is well formed (R82). -/

namespace Sys2Proof

/-- R85: only 0..7 name a register. -/
def RegNum.valid (r : RegNum) : Bool := decide (r.toNat < 8)

/-- R85: every register field the instruction uses names a register. -/
def Instr.wellFormed : Instr → Bool
  | .vzero vd _ => RegNum.valid vd
  | .vshr vd va _ => RegNum.valid vd && RegNum.valid va
  | .vshl vd va _ => RegNum.valid vd && RegNum.valid va
  | .vxor vd va vb => RegNum.valid vd && RegNum.valid va && RegNum.valid vb
  | .vcat vd va vb => RegNum.valid vd && RegNum.valid va && RegNum.valid vb
  | .vslice vd va _ _ => RegNum.valid vd && RegNum.valid va
  | .ldkey va => RegNum.valid va
  | .subkey vd _ => RegNum.valid vd
  | .frnd vd va vb => RegNum.valid vd && RegNum.valid va && RegNum.valid vb
  | .bsplit va => RegNum.valid va
  | .rnde _ => true
  | .rndd _ => true
  | .bjoin vd => RegNum.valid vd
  | .enc vd va => RegNum.valid vd && RegNum.valid va
  | .dec vd va => RegNum.valid vd && RegNum.valid va
  | .ldiv va => RegNum.valid va
  | .mstart => true
  | .mblk vd va => RegNum.valid vd && RegNum.valid va

/-- The check as a proposition, for hypotheses. -/
abbrev Instr.WellFormed (i : Instr) : Prop := i.wellFormed = true

end Sys2Proof
end

