-- ==== Sys2Proof/Decode.lean ====
section
/-! DEFINITION. Decoding a command word, total on all 2^32 words (R87), in the order of R88, and the encoder, both written from the tables of R81 and R83. -/

namespace Sys2Proof

/-- Why a word is no command. All three raise `IllegalOperation` (R88 steps 1 and 2). -/
inductive DecodeError where
  /-- R86: the top byte is in no row of R83. -/
  | unassignedOpcode
  /-- R84: a bit is set in a field the row does not use. -/
  | mustBeZero
  /-- R85: a register field the row uses holds 8..15. -/
  | registerNumber
deriving DecidableEq, Repr

/-- R83: the rows of the opcode map. -/
inductive Opcode where
  | vzero | vshr | vshl | vxor | vcat | vslice
  | ldkey | subkey | frnd
  | bsplit | rnde | rndd | bjoin | enc | dec
  | ldiv | mstart | mblk
deriving DecidableEq, Repr

/-- R83: the rows in the table's order. -/
def Opcode.all : List Opcode :=
  [.vzero, .vshr, .vshl, .vxor, .vcat, .vslice, .ldkey, .subkey, .frnd,
   .bsplit, .rnde, .rndd, .bjoin, .enc, .dec, .ldiv, .mstart, .mblk]

/-- R83, column `OP`. -/
def Opcode.byte : Opcode → BitVec 8
  | .vzero => 0x10 | .vshr => 0x11 | .vshl => 0x12 | .vxor => 0x13 | .vcat => 0x14 | .vslice => 0x15
  | .ldkey => 0x20 | .subkey => 0x21 | .frnd => 0x22
  | .bsplit => 0x30 | .rnde => 0x31 | .rndd => 0x32 | .bjoin => 0x33 | .enc => 0x34 | .dec => 0x35
  | .ldiv => 0x40 | .mstart => 0x41 | .mblk => 0x42

/-- R83, column `mask`: `OP`, the must-be-zero fields, and bit 3 of each used register field. -/
def Opcode.mask : Opcode → Word
  | .vzero => 0xFF8FF000 | .vshr => 0xFF88F000 | .vshl => 0xFF88F000
  | .vxor => 0xFF888FFF | .vcat => 0xFF888FFF | .vslice => 0xFF880000
  | .ldkey => 0xFFF8FFFF | .subkey => 0xFF8FF000 | .frnd => 0xFF888FFF
  | .bsplit => 0xFFF8FFFF | .rnde => 0xFFFFF000 | .rndd => 0xFFFFF000
  | .bjoin => 0xFF8FFFFF | .enc => 0xFF88FFFF | .dec => 0xFF88FFFF
  | .ldiv => 0xFFF8FFFF | .mstart => 0xFFFFFFFF | .mblk => 0xFF88FFFF

/-- R83, column `match`: `OP` in the top byte, zero below. -/
def Opcode.pattern (op : Opcode) : Word := op.byte ++ 0#24

/-- R83, column `uses`: bit 3 of each register field the row uses, the part of the mask that R85 speaks of. -/
def Opcode.registerBits : Opcode → Word
  | .vzero => 0x00800000 | .vshr => 0x00880000 | .vshl => 0x00880000
  | .vxor => 0x00888000 | .vcat => 0x00888000 | .vslice => 0x00880000
  | .ldkey => 0x00080000 | .subkey => 0x00800000 | .frnd => 0x00888000
  | .bsplit => 0x00080000 | .rnde => 0 | .rndd => 0
  | .bjoin => 0x00800000 | .enc => 0x00880000 | .dec => 0x00880000
  | .ldiv => 0x00080000 | .mstart => 0 | .mblk => 0x00880000

/-- R81: `OP`, bits 31..24. -/
def opField (w : Word) : BitVec 8 := w.extractLsb' 24 8

/-- R81: `VD`, bits 23..20. -/
def vdField (w : Word) : RegNum := w.extractLsb' 20 4

/-- R81: `VA`, bits 19..16. -/
def vaField (w : Word) : RegNum := w.extractLsb' 16 4

/-- R81: `VB`, bits 15..12. -/
def vbField (w : Word) : RegNum := w.extractLsb' 12 4

/-- R81: `IMM`, bits 11..0. -/
def immField (w : Word) : Imm := w.extractLsb' 0 12

/-- R81: `START`, bits 15..8. -/
def startField (w : Word) : Bound := w.extractLsb' 8 8

/-- R81: `END`, bits 7..0. -/
def endField (w : Word) : Bound := w.extractLsb' 0 8

/-- R83: the instruction of a row with the fields it uses. -/
def Opcode.operands (op : Opcode) (w : Word) : Instr :=
  match op with
  | .vzero => .vzero (vdField w) (immField w)
  | .vshr => .vshr (vdField w) (vaField w) (immField w)
  | .vshl => .vshl (vdField w) (vaField w) (immField w)
  | .vxor => .vxor (vdField w) (vaField w) (vbField w)
  | .vcat => .vcat (vdField w) (vaField w) (vbField w)
  | .vslice => .vslice (vdField w) (vaField w) (startField w) (endField w)
  | .ldkey => .ldkey (vaField w)
  | .subkey => .subkey (vdField w) (immField w)
  | .frnd => .frnd (vdField w) (vaField w) (vbField w)
  | .bsplit => .bsplit (vaField w)
  | .rnde => .rnde (immField w)
  | .rndd => .rndd (immField w)
  | .bjoin => .bjoin (vdField w)
  | .enc => .enc (vdField w) (vaField w)
  | .dec => .dec (vdField w) (vaField w)
  | .ldiv => .ldiv (vaField w)
  | .mstart => .mstart
  | .mblk => .mblk (vdField w) (vaField w)

/-- R88 step 1: the row whose `OP` is this byte. -/
def opcodeOf (b : BitVec 8) : Option Opcode := Opcode.all.find? fun op => op.byte == b

/-- R88 steps 1 and 2: the instruction a command word encodes, or why it encodes none. -/
def decode (w : Word) : Except DecodeError Instr :=
  match opcodeOf (opField w) with
  | none => .error .unassignedOpcode
  | some op =>
    if w &&& op.mask = op.pattern then .ok (op.operands w)
    else if w &&& (op.mask &&& ~~~op.registerBits) = op.pattern then .error .registerNumber
    else .error .mustBeZero

/-- R81: format N. -/
def formatN (op : Opcode) : Word := op.byte ++ 0#24

/-- R81: format R, `OP << 24 | VD << 20 | VA << 16 | VB << 12`. -/
def formatR (op : Opcode) (vd va vb : RegNum) : Word := op.byte ++ vd ++ va ++ vb ++ 0#12

/-- R81: format I, `OP << 24 | VD << 20 | VA << 16 | IMM`. -/
def formatI (op : Opcode) (vd va : RegNum) (imm : Imm) : Word := op.byte ++ vd ++ va ++ 0#4 ++ imm

/-- R81: format S, `OP << 24 | VD << 20 | VA << 16 | START << 8 | END`. -/
def formatS (op : Opcode) (vd va : RegNum) (start stop : Bound) : Word := op.byte ++ vd ++ va ++ start ++ stop

/-- R83: the command word of an instruction; a register field the row does not use is 0 (R84). -/
def encode : Instr → Word
  | .vzero vd len => formatI .vzero vd 0 len
  | .vshr vd va n => formatI .vshr vd va n
  | .vshl vd va n => formatI .vshl vd va n
  | .vxor vd va vb => formatR .vxor vd va vb
  | .vcat vd va vb => formatR .vcat vd va vb
  | .vslice vd va start stop => formatS .vslice vd va start stop
  | .ldkey va => formatR .ldkey 0 va 0
  | .subkey vd r => formatI .subkey vd 0 r
  | .frnd vd va vb => formatR .frnd vd va vb
  | .bsplit va => formatR .bsplit 0 va 0
  | .rnde r => formatI .rnde 0 0 r
  | .rndd r => formatI .rndd 0 0 r
  | .bjoin vd => formatR .bjoin vd 0 0
  | .enc vd va => formatR .enc vd va 0
  | .dec vd va => formatR .dec vd va 0
  | .ldiv va => formatR .ldiv 0 va 0
  | .mstart => formatN .mstart
  | .mblk vd va => formatR .mblk vd va 0

/-- R83: the row an instruction belongs to. -/
def Instr.opcode : Instr → Opcode
  | .vzero _ _ => .vzero
  | .vshr _ _ _ => .vshr
  | .vshl _ _ _ => .vshl
  | .vxor _ _ _ => .vxor
  | .vcat _ _ _ => .vcat
  | .vslice _ _ _ _ => .vslice
  | .ldkey _ => .ldkey
  | .subkey _ _ => .subkey
  | .frnd _ _ _ => .frnd
  | .bsplit _ => .bsplit
  | .rnde _ => .rnde
  | .rndd _ => .rndd
  | .bjoin _ => .bjoin
  | .enc _ _ => .enc
  | .dec _ _ => .dec
  | .ldiv _ => .ldiv
  | .mstart => .mstart
  | .mblk _ _ => .mblk

/-- The command word that a row's `nbits` bits `w` spell: one 32-bit word (R80), bits above `nbits` zero. -/
def tableWord (nbits w : Nat) : Word := BitVec.ofNat 32 (w % 2 ^ nbits)

/-- What this decoder reads from an instruction whose bits are `w`, numbered as the opcode table numbers them. -/
def decodeTableWord (nbits w : Nat) : Option Instr :=
  match decode (tableWord nbits w) with
  | .ok i => some i
  | .error _ => none

end Sys2Proof
end

