-- ==== Sys2Proof/Config.lean ====
section
/-! DEFINITION. The build-time parameters of R4 and the constants of this hardware. CORE is deterministic and leaves no value free (R9, U9), so there is no opaque constant here. The block, key and half lengths `B = K = 64`, `H = 32` are the widths of `Block` and `Half` in Word.lean; the literals `STRIDE`, `F_SHL`, `F_SHR` stand beside the functions that use them, in Machine/Cipher.lean. -/

namespace Sys2Proof

/-- R4: `NV`, the number of vector registers. -/
abbrev Config.numVecs : Nat := 8

/-- R4: `VMAX`, the greatest length in bits a vector register holds. -/
abbrev Config.vmax : Nat := 128

/-- R30: the constant the `ID` register reads as, ASCII "IBT7". -/
abbrev Config.idWord : BitVec 32 := 0x49425437#32

/-- R26, U5: the reset value of `CTRL.NR`. -/
abbrev Config.nrReset : BitVec 8 := 2#8

end Sys2Proof
end

