-- ==== Sys2Proof/Machine/State.lean ====
section
/-! DEFINITION. The architectural state of CORE, exactly the tuple of R20, and around it the host's side of the port: the inputs still to be issued and the words the reads returned (R9). -/

namespace Sys2Proof.Machine

open Sys2Proof

/-- R210: the five fault kinds. -/
inductive FaultKind where
  /-- Code 1. -/
  | lengthMismatch
  /-- Code 2. -/
  | invalidBlockLength
  /-- Code 3. -/
  | indexOutOfRange
  /-- Code 4. -/
  | illegalOperation
  /-- Code 5. -/
  | capacityExceeded
deriving DecidableEq, Repr

/-- R26: `CTRL.MODE`. The value 3 cannot be written, so it is no mode. DEDUCED (assumption 10). -/
inductive Mode where
  | none
  | cbc
  | cfb
deriving DecidableEq, Repr

/-- R26: `CTRL.DIR`. -/
inductive Dir where
  | encrypt
  | decrypt
deriving DecidableEq, Repr

/-- R20: "the whole state of CORE is the tuple below and nothing else". -/
structure CoreState where
  /-- R21: `V[0..7]`. -/
  vregs : Vector Vec Config.numVecs
  /-- R22: `KEY`. -/
  key : Block
  /-- R23: `IV`. -/
  iv : Block
  /-- R24: `FEED`. -/
  feed : Block
  /-- R25: `L`. -/
  left : Half
  /-- R25: `R`. -/
  right : Half
  /-- R26: `CTRL.NR`. -/
  nr : BitVec 8
  /-- R26: `CTRL.MODE`. -/
  mode : Mode
  /-- R26: `CTRL.DIR`. -/
  dir : Dir
  /-- R27: `STATUS.FAULT`; `none` is code 0. -/
  fault : Option FaultKind
  /-- R28: `FAULTINFO`. -/
  faultInfo : Word
  /-- R29: `BLKCNT`. -/
  blkcnt : BitVec 32
deriving DecidableEq, Repr

/-- What the outside can do to CORE: the two transactions of R51, and a pulse of the `rst_n` input (R240). -/
inductive HostInput where
  /-- `RegRead(idx)`. -/
  | read (idx : PortIndex)
  /-- `RegWrite(idx, word)`. -/
  | write (idx : PortIndex) (word : Word)
  /-- R240: `rst_n` goes low and high again. DEDUCED: one input, between transactions (assumption 7). -/
  | hardReset
deriving DecidableEq, Repr

/-- The reasons a step stops with no next state. There is none: CORE has "no stuck state and no hang: every
transaction completes" (R10), and its own faults (`FaultKind`) are next states (R212). Nothing raises one; safe. DEDUCED (assumption 9). -/
inductive Fault : Type
deriving DecidableEq, Repr

/-- The reasons an instruction has no meaning in this model. -/
inductive Refusal where
  /-- Raised only by an arm of `exec` whose instruction is not modelled yet; safe. No arm raises it. -/
  | notModelled (mnemonic : String)
deriving DecidableEq, Repr

/-- The machine: CORE (R20) and the host program it is driven by (R9). -/
structure State where
  /-- R20: CORE's own state. -/
  core : CoreState
  /-- R9: the rest of the host program, the next input first. DESIGN CHOICE: the model's own field (assumption 1). -/
  pending : List HostInput
  /-- R9: the words the `RegRead`s returned so far, oldest first. DESIGN CHOICE: the model's own field (assumption 2). -/
  observed : List Word
deriving DecidableEq, Repr

/-- R34: every piece of CORE's state after either reset. -/
def CoreState.reset : CoreState where
  vregs := Vector.replicate Config.numVecs ⟨0, 0#0⟩
  key := 0
  iv := 0
  feed := 0
  left := 0
  right := 0
  nr := Config.nrReset
  mode := .none
  dir := .encrypt
  fault := none
  faultInfo := 0
  blkcnt := 0

/-- The machine right after reset: R34, no host input issued yet and no word read yet. -/
def State.reset : State where
  core := CoreState.reset
  pending := []
  observed := []

end Sys2Proof.Machine
end

