-- ==== Sys2Proof/Machine/BitVector.lean ====
section
/-! DEFINITION. The BitVector functions of 40_bitvector_alu.md Part 1 (R101 to R107), the conversion to and from bytes (R54), and the layout of a vector in 32-bit words (R55 to R58). On a vector of known length they are written in the integer view; Laws/BitVector.lean shows them position by position. -/

namespace Sys2Proof.Machine

open Sys2Proof

/-- R102, integer view: `int(w) = int(v) >> n`. -/
def shiftRight {len : Nat} (v : BitVec len) (n : Nat) : BitVec len := v >>> n

/-- R103, integer view: `int(w) = (int(v) * 2^n) mod 2^len`. -/
def shiftLeft {len : Nat} (v : BitVec len) (n : Nat) : BitVec len := v <<< n

/-- R106 where its condition holds: positions `start ≤ i < stop`. -/
def sliceBits {len : Nat} (v : BitVec len) (start stop : Nat) : BitVec (stop - start) :=
  v.extractLsb' (len - stop) (stop - start)

/-- R107 where `n ≤ len`: the first `n` positions. -/
def truncate {len : Nat} (n : Nat) (v : BitVec len) : BitVec n := v.extractLsb' (len - n) n

/-- R57: "extended at the tail with zeros" or cut to its first `n` positions, `(v ‖ 0^n)[0:n]`. -/
def resize {len : Nat} (n : Nat) (v : BitVec len) : BitVec n := (v ++ 0#n).extractLsb' len n

end Sys2Proof.Machine

namespace Sys2Proof

open Sys2Proof.Machine

/-- R5: `v[i]`, with 0 at and beyond the length. -/
def Vec.pos (v : Vec) (i : Nat) : Bool := v.bits.getMsbD i

/-- The bits of a vector whose length is `n`; nothing for another length. -/
def Vec.ofLen? (n : Nat) (v : Vec) : Option (BitVec n) :=
  if h : v.len = n then some (v.bits.cast h) else none

/-- R101: `0^n`. -/
def Vec.zero (n : Nat) : Vec := ⟨n, 0#n⟩

/-- R34: the empty vector. -/
def Vec.empty : Vec := Vec.zero 0

/-- R102. -/
def Vec.shiftRight (v : Vec) (n : Nat) : Vec := ⟨v.len, Machine.shiftRight v.bits n⟩

/-- R103. -/
def Vec.shiftLeft (v : Vec) (n : Nat) : Vec := ⟨v.len, Machine.shiftLeft v.bits n⟩

/-- R104: fails with `LengthMismatch` when the lengths differ. -/
def Vec.xor (a b : Vec) : Except FaultKind Vec :=
  match b.ofLen? a.len with
  | some y => .ok ⟨a.len, a.bits ^^^ y⟩
  | none => .error .lengthMismatch

/-- R105: `a`'s bits, then `b`'s. -/
def Vec.concat (a b : Vec) : Vec := ⟨a.len + b.len, a.bits ++ b.bits⟩

/-- R106: fails with `IndexOutOfRange` if `start > stop` or `stop > len(v)`. -/
def Vec.slice (v : Vec) (start stop : Nat) : Except FaultKind Vec :=
  if start > stop ∨ stop > v.len then .error .indexOutOfRange
  else .ok ⟨stop - start, sliceBits v.bits start stop⟩

/-- R107: `Slice(v, 0, n)`. -/
def Vec.truncate (v : Vec) (n : Nat) : Except FaultKind Vec := v.slice 0 n

/-- R57: the vector cut or zero-extended to length `n`. -/
def Vec.resize (v : Vec) (n : Nat) : Vec := ⟨n, Machine.resize n v.bits⟩

/-- R54: byte 0 first, the most significant bit of each byte first. -/
def Vec.fromBytes : List Byte → Vec
  | [] => Vec.empty
  | b :: bs => Vec.concat ⟨8, b⟩ (Vec.fromBytes bs)

/-- R54: byte `j` of a vector, zeros filling the positions at and beyond the length. -/
def Vec.byteAt (v : Vec) (j : Nat) : Byte := (v.bits ++ 0#(8 * j + 8)).extractLsb' v.len 8

/-- R54: the bytes of a vector, the last one filled with zeros where the length is no multiple of 8. -/
def Vec.toBytes (v : Vec) : List Byte := (List.range ((v.len + 7) / 8)).map v.byteAt

/-- R55, R56: word `j` of a vector: position `32j + k` in bit `31 - k`, 0 at and beyond the length. -/
def Vec.word (v : Vec) (j : Nat) : Word := (v.bits ++ 0#(32 * j + 32)).extractLsb' v.len 32

/-- The vector of length `len` that holds `w` at positions `32j .. 32j+31`, cut at `len`, and 0 elsewhere. -/
def wordAt (len j : Nat) (w : Word) : BitVec len :=
  (0#(32 * j) ++ w ++ 0#len).extractLsb' (32 * j + 32) len

/-- R58: positions `32j .. 32j+31` below the length take the bits of `w`; the length is unchanged. -/
def Vec.setWord (v : Vec) (j : Nat) (w : Word) : Vec :=
  ⟨v.len, (v.bits &&& ~~~wordAt v.len j (BitVec.allOnes 32)) ||| wordAt v.len j w⟩

end Sys2Proof
end

