-- ==== Sys2Proof/Machine/Flags.lean ====
section
/-! DEFINITION. The status and control words. CORE has no carry, zero, sign or overflow flag: `STATUS.FAULT` is the only flag and no command writes one as a side effect (R27). -/

namespace Sys2Proof.Machine

open Sys2Proof

/-- R210: the code of a fault kind. -/
def FaultKind.code : FaultKind → BitVec 3
  | .lengthMismatch => 1
  | .invalidBlockLength => 2
  | .indexOutOfRange => 3
  | .illegalOperation => 4
  | .capacityExceeded => 5

/-- R27: the field `STATUS.FAULT`; 6 and 7 are never produced. -/
def faultField : Option FaultKind → BitVec 3
  | none => 0
  | some k => k.code

/-- R27: the word `STATUS` reads as, `[31:3]` zero. -/
def statusWord (c : CoreState) : Word := 0#29 ++ faultField c.fault

/-- R27: "CORE is halted exactly when `FAULT ≠ 0`". -/
def CoreState.halted (c : CoreState) : Bool := c.fault.isSome

/-- R218: the level of the output `fault_o`, at all times equal to `STATUS.FAULT ≠ 0`. -/
def faultLine (c : CoreState) : Bool := c.halted

/-- R26: the field `MODE`. -/
def Mode.field : Mode → BitVec 2
  | .none => 0
  | .cbc => 1
  | .cfb => 2

/-- R26: the mode a field value names; 3 names none. -/
def modeOf? (m : BitVec 2) : Option Mode :=
  if m = 0 then some .none else if m = 1 then some .cbc else if m = 2 then some .cfb else none

/-- R26: the field `DIR`. -/
def Dir.field : Dir → BitVec 1
  | .encrypt => 0
  | .decrypt => 1

/-- R26: the direction a field value names. -/
def dirOf (d : BitVec 1) : Dir := if d = 0 then .encrypt else .decrypt

/-- R26: the word `CTRL` reads as, `(DIR << 10) | (MODE << 8) | NR`. -/
def ctrlWordOf (nr : BitVec 8) (mode : Mode) (dir : Dir) : Word := 0#21 ++ dir.field ++ mode.field ++ nr

/-- R26: the word `CTRL` reads as. -/
def ctrlWord (c : CoreState) : Word := ctrlWordOf c.nr c.mode c.dir

/-- R28: `FAULTINFO` of a register access, `0xFF000000 | (wr << 7) | idx`. DEDUCED: an illegal command word can equal it
(assumption 14). -/
def accessInfo (wr : Bool) (idx : PortIndex) : Word := 0xFF0000#24 ++ BitVec.ofBool wr ++ idx

end Sys2Proof.Machine
end

