-- ==== Sys2Proof/Machine/Ops.lean ====
section
/-! DEFINITION. The named operations on CORE's state: reading and writing each register, fault entry (R212), reset (R34, R216), and the frame every command runs in (R88, R117, R214). -/

namespace Sys2Proof.Machine

open Sys2Proof

/-- What one step or one command answers. -/
abbrev Result := Host.Outcome State Fault Refusal

/-- R8: `V[i]`. -/
def CoreState.vec (c : CoreState) (i : Fin 8) : Vec := c.vregs[i]

/-- R8: `V[i] <- x`; "replaces the whole BitVector, length included" (R21). -/
def CoreState.setVec (c : CoreState) (i : Fin 8) (x : Vec) : CoreState := { c with vregs := c.vregs.set i x }

/-- R22: `KEY <- k`. -/
def CoreState.setKey (c : CoreState) (k : Block) : CoreState := { c with key := k }

/-- R23: `IV <- x`. -/
def CoreState.setIv (c : CoreState) (x : Block) : CoreState := { c with iv := x }

/-- R24: `FEED <- x`. -/
def CoreState.setFeed (c : CoreState) (x : Block) : CoreState := { c with feed := x }

/-- R25: `L <- l; R <- r`. -/
def CoreState.setHalves (c : CoreState) (p : Half × Half) : CoreState := { c with left := p.1, right := p.2 }

/-- R59: the three fields of `CTRL` at once. -/
def CoreState.setCtrl (c : CoreState) (nr : BitVec 8) (mode : Mode) (dir : Dir) : CoreState :=
  { c with nr := nr, mode := mode, dir := dir }

/-- R29: `BLKCNT <- n`. -/
def CoreState.setBlkcnt (c : CoreState) (n : BitVec 32) : CoreState := { c with blkcnt := n }

/-- R212: fault entry. `STATUS.FAULT` and `FAULTINFO` are written and nothing else; while CORE is halted the first
fault is kept (R214). -/
def CoreState.raise (c : CoreState) (k : FaultKind) (info : Word) : CoreState :=
  if c.halted then c else { c with fault := some k, faultInfo := info }

/-- R216, R240: leaving the halted state is reset; nothing survives it. -/
def CoreState.resetAll (_c : CoreState) : CoreState := CoreState.reset

/-- The machine with another CORE state; the host's side is unchanged. -/
def State.withCore (s : State) (c : CoreState) : State := { s with core := c }

/-- R9: the machine after a `RegRead` returned `w`. -/
def State.observe (s : State) (w : Word) : State := { s with observed := s.observed ++ [w] }

/-- The machine with the next host input taken. -/
def State.withPending (s : State) (p : List HostInput) : State := { s with pending := p }

/-- The frame of every command. Halted, no command executes (R214). A register field 8..15 is `IllegalOperation`
before any check of the instruction's own (R85, R88). Otherwise the command checks, computes and writes (`body`); where
its check fails, nothing is written but fault entry with the command word (R117, R212, R213). DEDUCED: what it does with a
term no word decodes to, and that the word recorded is `encode i` (assumptions 5 and 6). -/
def command (i : Instr) (s : State) (body : CoreState → Except FaultKind CoreState) : Result :=
  if s.core.halted then .next s
  else if i.wellFormed then
    match body s.core with
    | .ok c => .next (s.withCore c)
    | .error k => .next (s.withCore (s.core.raise k (encode i)))
  else .next (s.withCore (s.core.raise .illegalOperation (encode i)))

end Sys2Proof.Machine
end

