-- ==== Sys2Proof/Machine/Operands.lean ====
section
/-! DEFINITION. The operand forms of R82: a vector register read or written whole, an unsigned immediate used as the natural number it spells, and the three length checks a command makes on its source. There are no memory operands and no addressing modes. -/

namespace Sys2Proof.Machine

open Sys2Proof

/-- R81, R85: the register a field names. In a command the field is 0..7; DEDUCED: only its low three bits count
(assumption 11). -/
def regIdx (r : RegNum) : Fin 8 := Fin.ofNat 8 r.toNat

/-- R82: a register operand is read as a whole BitVector. -/
def srcVec (c : CoreState) (r : RegNum) : Vec := c.vec (regIdx r)

/-- R21: a destination register takes the whole result. -/
def writeVd (c : CoreState) (r : RegNum) (x : Vec) : CoreState := c.setVec (regIdx r) x

/-- R117: a computed vector goes to the destination; a failed check writes nothing. -/
def storeVec (c : CoreState) (r : RegNum) (x : Except FaultKind Vec) : Except FaultKind CoreState :=
  x.map (writeVd c r)

/-- R159, R163, R164, R192: the operand as a block; `InvalidBlockLength` unless its length is 64. -/
def blockOperand (c : CoreState) (r : RegNum) : Except FaultKind Block :=
  match (srcVec c r).ofLen? 64 with
  | some b => .ok b
  | none => .error .invalidBlockLength

/-- R133, R190: the operand as a key or an IV; `LengthMismatch` unless its length is 64. -/
def key64Operand (c : CoreState) (r : RegNum) : Except FaultKind Block :=
  match (srcVec c r).ofLen? 64 with
  | some b => .ok b
  | none => .error .lengthMismatch

/-- R111, R115: a result longer than `VMAX` is `CapacityExceeded`; the check looks at the length alone. -/
def checkCapacity (x : Vec) : Except FaultKind Vec :=
  if x.len > Config.vmax then .error .capacityExceeded else .ok x

end Sys2Proof.Machine
end

