-- ==== Sys2Proof/Machine/Alu.lean ====
section
/-! DEFINITION. The meanings of the six commands of 40_bitvector_alu.md Part 2. -/

namespace Sys2Proof.Machine

open Sys2Proof

/-- R111. -/
def execVzero (vd : RegNum) (len : Imm) (s : State) : Result :=
  command (.vzero vd len) s fun c => storeVec c vd (checkCapacity (Vec.zero len.toNat))

/-- R112. -/
def execVshr (vd va : RegNum) (n : Imm) (s : State) : Result :=
  command (.vshr vd va n) s fun c => storeVec c vd (.ok ((srcVec c va).shiftRight n.toNat))

/-- R113. -/
def execVshl (vd va : RegNum) (n : Imm) (s : State) : Result :=
  command (.vshl vd va n) s fun c => storeVec c vd (.ok ((srcVec c va).shiftLeft n.toNat))

/-- R114. -/
def execVxor (vd va vb : RegNum) (s : State) : Result :=
  command (.vxor vd va vb) s fun c => storeVec c vd ((srcVec c va).xor (srcVec c vb))

/-- R115. -/
def execVcat (vd va vb : RegNum) (s : State) : Result :=
  command (.vcat vd va vb) s fun c => storeVec c vd (checkCapacity ((srcVec c va).concat (srcVec c vb)))

/-- R116. -/
def execVslice (vd va : RegNum) (start stop : Bound) (s : State) : Result :=
  command (.vslice vd va start stop) s fun c => storeVec c vd ((srcVec c va).slice start.toNat stop.toNat)

end Sys2Proof.Machine
end

