-- ==== Sys2Proof/Machine/Cipher.lean ====
section
/-! DEFINITION. The pure functions of 41_round_subkey.md and 42_block_cipher.md Part 1: F, the subkey scheduler, the rounds, block encryption and decryption. -/

namespace Sys2Proof.Machine

open Sys2Proof

/-- R4: `STRIDE`, bits of right shift of the key per round index. -/
def stride : Nat := 8

/-- R4: `F_SHL`, the left-shift amount of the half in F. -/
def fShl : Nat := 3

/-- R4: `F_SHR`, the right-shift amount of the subkey in F. -/
def fShr : Nat := 2

/-- R130: `F(h, k) = Xor(ShiftLeft(h, 3), ShiftRight(k, 2))` for two vectors of equal length. -/
def roundF {n : Nat} (h k : BitVec n) : BitVec n := shiftLeft h fShl ^^^ shiftRight k fShr

/-- R130 on BitVectors: fails with `LengthMismatch` when the lengths differ. -/
def vecRoundF (h k : Vec) : Except FaultKind Vec :=
  match k.ofLen? h.len with
  | some y => .ok ⟨h.len, roundF h.bits y⟩
  | none => .error .lengthMismatch

/-- R131: `Subkey(Key, r) = Truncate(ShiftRight(Key, 8r), H)`, `8r` a natural number. -/
def roundSubkey (key : Block) (r : Nat) : Half := truncate 32 (shiftRight key (stride * r))

/-- R150: `Left(b)`, positions 0..31. -/
def leftHalf (b : Block) : Half := sliceBits b 0 32

/-- R150: `Right(b)`, positions 32..63. -/
def rightHalf (b : Block) : Half := sliceBits b 32 64

/-- R150: the pair `(Left(b), Right(b))`. -/
def halves (b : Block) : Half × Half := (leftHalf b, rightHalf b)

/-- R150: `Join(l, r) = Concat(l, r)`. -/
def join (p : Half × Half) : Block := p.1 ++ p.2

/-- R151: one encryption round, both components computed from the old pair. -/
def encRound (key : Block) (r : Nat) (p : Half × Half) : Half × Half :=
  (roundF p.1 (roundSubkey key r) ^^^ p.2, p.1)

/-- R152: one decryption round, both components computed from the old pair. -/
def decRound (key : Block) (r : Nat) (p : Half × Half) : Half × Half :=
  (p.2, roundF p.2 (roundSubkey key r) ^^^ p.1)

/-- R153: the encryption rounds `0, 1, ..., n-1`, in this order. DEDUCED: defined for `n = 0` too (assumption 13). -/
def encRounds (key : Block) : Nat → Half × Half → Half × Half
  | 0, p => p
  | n + 1, p => encRound key n (encRounds key n p)

/-- R154: the decryption rounds `n-1, ..., 0`, in this order; no swap before or after (R156). -/
def decRounds (key : Block) : Nat → Half × Half → Half × Half
  | 0, p => p
  | n + 1, p => decRounds key n (decRound key n p)

/-- R153: the final pair of block encryption. -/
def encryptPair (b key : Block) (n : Nat) : Half × Half := encRounds key n (halves b)

/-- R154: the final pair of block decryption. -/
def decryptPair (b key : Block) (n : Nat) : Half × Half := decRounds key n (halves b)

/-- R153: `Encrypt(b, Key, n)`. -/
def encrypt (b key : Block) (n : Nat) : Block := join (encryptPair b key n)

/-- R154: `Decrypt(b, Key, n)`. -/
def decrypt (b key : Block) (n : Nat) : Block := join (decryptPair b key n)

end Sys2Proof.Machine
end

