-- ==== Sys2Proof/Machine/BlockCipher.lean ====
section
/-! DEFINITION. The meanings of the six commands of 42_block_cipher.md Part 2. -/

namespace Sys2Proof.Machine

open Sys2Proof

/-- R25: the pair `(L, R)`. -/
def CoreState.pair (c : CoreState) : Half × Half := (c.left, c.right)

/-- R163, R164: the final pair stays in `L`, `R` and its join goes to the destination. -/
def storePair (c : CoreState) (vd : RegNum) (p : Half × Half) : CoreState :=
  writeVd (c.setHalves p) vd ⟨64, join p⟩

/-- R159. -/
def execBsplit (va : RegNum) (s : State) : Result :=
  command (.bsplit va) s fun c => (blockOperand c va).map fun b => c.setHalves (halves b)

/-- R160. -/
def execRnde (r : Imm) (s : State) : Result :=
  command (.rnde r) s fun c => .ok (c.setHalves (encRound c.key r.toNat c.pair))

/-- R161. -/
def execRndd (r : Imm) (s : State) : Result :=
  command (.rndd r) s fun c => .ok (c.setHalves (decRound c.key r.toNat c.pair))

/-- R162. -/
def execBjoin (vd : RegNum) (s : State) : Result :=
  command (.bjoin vd) s fun c => .ok (writeVd c vd ⟨64, join c.pair⟩)

/-- R163. -/
def execEnc (vd va : RegNum) (s : State) : Result :=
  command (.enc vd va) s fun c =>
    (blockOperand c va).map fun b => storePair c vd (encryptPair b c.key c.nr.toNat)

/-- R164. -/
def execDec (vd va : RegNum) (s : State) : Result :=
  command (.dec vd va) s fun c =>
    (blockOperand c va).map fun b => storePair c vd (decryptPair b c.key c.nr.toNat)

end Sys2Proof.Machine
end

