-- ==== Sys2Proof/Machine/Chaining.lean ====
section
/-! DEFINITION. The chaining functions of 43_chaining.md: the recurrences over lists of blocks (R182 to R186) and the one block a machine processes at a time (the case table of R192). -/

namespace Sys2Proof.Machine

open Sys2Proof

/-- R192: what one block of a message leaves: the output, the new feed and the final pair of the one cipher call. -/
structure BlockStep where
  out : Block
  feed : Block
  pair : Half × Half
deriving DecidableEq, Repr

/-- R192: the case table over `(CTRL.MODE, CTRL.DIR)` for input block `x` and feed `f`. -/
def chainBlock (mode : Mode) (dir : Dir) (key : Block) (n : Nat) (x f : Block) : BlockStep :=
  match mode, dir with
  | .none, .encrypt => ⟨encrypt x key n, f, encryptPair x key n⟩
  | .none, .decrypt => ⟨decrypt x key n, f, decryptPair x key n⟩
  | .cbc, .encrypt => ⟨encrypt (x ^^^ f) key n, encrypt (x ^^^ f) key n, encryptPair (x ^^^ f) key n⟩
  | .cbc, .decrypt => ⟨decrypt x key n ^^^ f, x, decryptPair x key n⟩
  | .cfb, .encrypt => ⟨encrypt f key n ^^^ x, encrypt f key n ^^^ x, encryptPair f key n⟩
  | .cfb, .decrypt => ⟨encrypt f key n ^^^ x, x, encryptPair f key n⟩

/-- R182: `C_i = E(P_i ⊕ feed_i)`, `feed_{i+1} = C_i`. -/
def cbcEncrypt (key : Block) (n : Nat) : Block → List Block → List Block
  | _, [] => []
  | feed, p :: ps => encrypt (p ^^^ feed) key n :: cbcEncrypt key n (encrypt (p ^^^ feed) key n) ps

/-- R183: `P_i = D(C_i) ⊕ feed_i`, `feed_{i+1} = C_i`. -/
def cbcDecrypt (key : Block) (n : Nat) : Block → List Block → List Block
  | _, [] => []
  | feed, c :: cs => (decrypt c key n ^^^ feed) :: cbcDecrypt key n c cs

/-- R184: `C_i = E(feed_i) ⊕ P_i`, `feed_{i+1} = C_i`. -/
def cfbEncrypt (key : Block) (n : Nat) : Block → List Block → List Block
  | _, [] => []
  | feed, p :: ps => (encrypt feed key n ^^^ p) :: cfbEncrypt key n (encrypt feed key n ^^^ p) ps

/-- R185: `P_i = E(feed_i) ⊕ C_i`, `feed_{i+1} = C_i`; the block cipher's decryption is never used. -/
def cfbDecrypt (key : Block) (n : Nat) : Block → List Block → List Block
  | _, [] => []
  | feed, c :: cs => (encrypt feed key n ^^^ c) :: cfbDecrypt key n c cs

/-- R187: the ciphertext blocks `C_i` by R182, R184 or R186. -/
def encryptBlocks (mode : Mode) (key iv : Block) (n : Nat) (ps : List Block) : List Block :=
  match mode with
  | .none => ps.map fun p => encrypt p key n
  | .cbc => cbcEncrypt key n iv ps
  | .cfb => cfbEncrypt key n iv ps

/-- R187: the plaintext blocks `P_i` by R183, R185 or R186. -/
def decryptBlocks (mode : Mode) (key iv : Block) (n : Nat) (cs : List Block) : List Block :=
  match mode with
  | .none => cs.map fun c => decrypt c key n
  | .cbc => cbcDecrypt key n iv cs
  | .cfb => cfbDecrypt key n iv cs

/-- R187: the block function of a mode in a direction. -/
def processBlocks (mode : Mode) (dir : Dir) (key iv : Block) (n : Nat) (xs : List Block) : List Block :=
  match dir with
  | .encrypt => encryptBlocks mode key iv n xs
  | .decrypt => decryptBlocks mode key iv n xs

end Sys2Proof.Machine
end

