-- ==== Sys2Proof/Machine/ChainCommands.lean ====
section
/-! DEFINITION. The meanings of the three commands of 43_chaining.md Part 2. -/

namespace Sys2Proof.Machine

open Sys2Proof

/-- R192: what `MBLK` writes once its block is processed; `BLKCNT` counts modulo 2^32 (R29). -/
def storeBlockStep (c : CoreState) (vd : RegNum) (b : BlockStep) : CoreState :=
  (((writeVd c vd ⟨64, b.out⟩).setFeed b.feed).setHalves b.pair).setBlkcnt (c.blkcnt + 1)

/-- R190. -/
def execLdiv (va : RegNum) (s : State) : Result :=
  command (.ldiv va) s fun c => (key64Operand c va).map c.setIv

/-- R191. -/
def execMstart (s : State) : Result :=
  command .mstart s fun c => .ok ((c.setFeed c.iv).setBlkcnt 0)

/-- R192. -/
def execMblk (vd va : RegNum) (s : State) : Result :=
  command (.mblk vd va) s fun c =>
    (blockOperand c va).map fun x => storeBlockStep c vd (chainBlock c.mode c.dir c.key c.nr.toNat x c.feed)

end Sys2Proof.Machine
end

