-- ==== Sys2Proof/Machine/RoundKey.lean ====
section
/-! DEFINITION. The meanings of the three commands of 41_round_subkey.md Part 2. -/

namespace Sys2Proof.Machine

open Sys2Proof

/-- R133. -/
def execLdkey (va : RegNum) (s : State) : Result :=
  command (.ldkey va) s fun c => (key64Operand c va).map c.setKey

/-- R134. -/
def execSubkey (vd : RegNum) (r : Imm) (s : State) : Result :=
  command (.subkey vd r) s fun c => storeVec c vd (.ok ⟨32, roundSubkey c.key r.toNat⟩)

/-- R135. -/
def execFrnd (vd va vb : RegNum) (s : State) : Result :=
  command (.frnd vd va vb) s fun c => storeVec c vd (vecRoundF (srcVec c va) (srcVec c vb))

end Sys2Proof.Machine
end

