-- ==== Sys2Proof/Machine/Dispatch.lean ====
section
/-! DEFINITION. One arm per command of R83, in the table's order. -/

namespace Sys2Proof.Machine

open Sys2Proof

def exec (i : Instr) (s : State) : Host.Outcome State Fault Refusal :=
  match i with
  | .vzero vd len => Sys2Proof.Machine.execVzero vd len s
  | .vshr vd va n => Sys2Proof.Machine.execVshr vd va n s
  | .vshl vd va n => Sys2Proof.Machine.execVshl vd va n s
  | .vxor vd va vb => Sys2Proof.Machine.execVxor vd va vb s
  | .vcat vd va vb => Sys2Proof.Machine.execVcat vd va vb s
  | .vslice vd va start stop => Sys2Proof.Machine.execVslice vd va start stop s
  | .ldkey va => Sys2Proof.Machine.execLdkey va s
  | .subkey vd r => Sys2Proof.Machine.execSubkey vd r s
  | .frnd vd va vb => Sys2Proof.Machine.execFrnd vd va vb s
  | .bsplit va => Sys2Proof.Machine.execBsplit va s
  | .rnde r => Sys2Proof.Machine.execRnde r s
  | .rndd r => Sys2Proof.Machine.execRndd r s
  | .bjoin vd => Sys2Proof.Machine.execBjoin vd s
  | .enc vd va => Sys2Proof.Machine.execEnc vd va s
  | .dec vd va => Sys2Proof.Machine.execDec vd va s
  | .ldiv va => Sys2Proof.Machine.execLdiv va s
  | .mstart => Sys2Proof.Machine.execMstart s
  | .mblk vd va => Sys2Proof.Machine.execMblk vd va s

end Sys2Proof.Machine
end

