-- ==== Sys2Proof/Machine/Port.lean ====
section
/-! DEFINITION. The register port of 20_memory.md: the register map (R52), reads (R53, R56, R62), writes (R57 to R61) and accesses while halted (R68). -/

namespace Sys2Proof.Machine

open Sys2Proof

/-- R52: what an index of the register space names. -/
inductive PortReg where
  | id
  | ctrl
  | status
  | cmd
  | faultInfo
  | blkcnt
  | srst
  /-- `KEY0`, `KEY1`. -/
  | key (j : Fin 2)
  /-- `IV0`, `IV1`. -/
  | iv (j : Fin 2)
  /-- `FEED0`, `FEED1`. -/
  | feed (j : Fin 2)
  | lreg
  | rreg
  /-- `VLEN_i`. -/
  | vlen (i : Fin 8)
  /-- `VDATA_i[j]`. -/
  | vdata (i : Fin 8) (j : Fin 4)
  | reserved
deriving DecidableEq, Repr

/-- R52: the access column of the register map; a reserved index has none. -/
inductive Access where
  | readOnly
  | writeOnly
  | readWrite
  | reserved
deriving DecidableEq, Repr

/-- R52: the access of each register. -/
def PortReg.access : PortReg → Access
  | .id => .readOnly
  | .ctrl => .readWrite
  | .status => .readOnly
  | .cmd => .writeOnly
  | .faultInfo => .readOnly
  | .blkcnt => .readOnly
  | .srst => .writeOnly
  | .key _ => .readOnly
  | .iv _ => .readOnly
  | .feed _ => .readOnly
  | .lreg => .readOnly
  | .rreg => .readOnly
  | .vlen _ => .readWrite
  | .vdata _ _ => .readWrite
  | .reserved => .reserved

/-- R52: the register can be read. -/
def Access.readable : Access → Bool
  | .readOnly | .readWrite => true
  | .writeOnly | .reserved => false

/-- R52: the register can be written. -/
def Access.writable : Access → Bool
  | .writeOnly | .readWrite => true
  | .readOnly | .reserved => false

/-- R52: word `o` of the window of vector register `i`. -/
def windowReg (i : Fin 8) (o : Nat) : PortReg :=
  match o with
  | 0 => .vlen i
  | 4 => .vdata i 0
  | 5 => .vdata i 1
  | 6 => .vdata i 2
  | 7 => .vdata i 3
  | _ => .reserved

/-- R52: the register map; every index not listed is reserved. -/
def portReg (idx : PortIndex) : PortReg :=
  match idx.toNat with
  | 0x00 => .id
  | 0x01 => .ctrl
  | 0x02 => .status
  | 0x03 => .cmd
  | 0x04 => .faultInfo
  | 0x05 => .blkcnt
  | 0x06 => .srst
  | 0x08 => .key 0
  | 0x09 => .key 1
  | 0x0A => .iv 0
  | 0x0B => .iv 1
  | 0x0C => .feed 0
  | 0x0D => .feed 1
  | 0x0E => .lreg
  | 0x0F => .rreg
  | n => if 0x20 ≤ n ∧ n < 0x60 then windowReg (Fin.ofNat 8 ((n - 0x20) / 8)) (n % 8) else .reserved

/-- R52: the index of `VLEN_i`. -/
def vlenIdx (i : Fin 8) : PortIndex := BitVec.ofNat 7 (0x20 + 8 * i.val)

/-- R52: the index of `VDATA_i[j]`. -/
def vdataIdx (i : Fin 8) (j : Fin 4) : PortIndex := BitVec.ofNat 7 (0x24 + 8 * i.val + j.val)

/-- R52: the index of `CTRL`. -/
def ctrlIdx : PortIndex := 0x01

/-- R52: the index of `STATUS`. -/
def statusIdx : PortIndex := 0x02

/-- R52: the index of `CMD`. -/
def cmdIdx : PortIndex := 0x03

/-- R52: the index of `SRST`. -/
def srstIdx : PortIndex := 0x06

/-- R52, R55: the word a register reads as; nothing for a write-only register or a reserved index. -/
def readReg (c : CoreState) : PortReg → Option Word
  | .id => some Config.idWord
  | .ctrl => some (ctrlWord c)
  | .status => some (statusWord c)
  | .cmd => none
  | .faultInfo => some c.faultInfo
  | .blkcnt => some c.blkcnt
  | .srst => none
  | .key j => some (Vec.word ⟨64, c.key⟩ j.val)
  | .iv j => some (Vec.word ⟨64, c.iv⟩ j.val)
  | .feed j => some (Vec.word ⟨64, c.feed⟩ j.val)
  | .lreg => some c.left
  | .rreg => some c.right
  | .vlen i => some (BitVec.ofNat 32 (c.vec i).len)
  | .vdata i j => some ((c.vec i).word j.val)
  | .reserved => none

/-- R53, R62, R68: `RegRead(idx)`. A readable register changes nothing; any other index returns 0 and raises
`IllegalOperation`, which while halted records nothing. -/
def regRead (idx : PortIndex) (s : State) : State :=
  match readReg s.core (portReg idx) with
  | some w => s.observe w
  | none => (s.withCore (s.core.raise .illegalOperation (accessInfo false idx))).observe 0

/-- R59: `RegWrite(CTRL, w)`. -/
def writeCtrl (w : Word) (c : CoreState) : CoreState :=
  match modeOf? (w.extractLsb' 8 2) with
  | some m =>
    if w.extractLsb' 11 21 ≠ 0 ∨ w.extractLsb' 0 8 = 0 then c.raise .illegalOperation (accessInfo true ctrlIdx)
    else c.setCtrl (w.extractLsb' 0 8) m (dirOf (w.extractLsb' 10 1))
  | none => c.raise .illegalOperation (accessInfo true ctrlIdx)

/-- R57: `RegWrite(VLEN_i, w)`. -/
def writeVlen (i : Fin 8) (w : Word) (c : CoreState) : CoreState :=
  if w.toNat > Config.vmax then c.raise .capacityExceeded (accessInfo true (vlenIdx i))
  else c.setVec i ((c.vec i).resize w.toNat)

/-- R58: `RegWrite(VDATA_i[j], w)`. -/
def writeVdata (i : Fin 8) (j : Fin 4) (w : Word) (c : CoreState) : CoreState :=
  c.setVec i ((c.vec i).setWord j.val w)

/-- R60, R88: a word written to `CMD` while CORE is not halted. -/
def runWord (w : Word) (s : State) : Result :=
  match decode w with
  | .ok i => exec i s
  | .error _ => .next (s.withCore (s.core.raise .illegalOperation w))

/-- R53, R57 to R61, R68: `RegWrite(idx, w)`. `SRST` acts at all times; every other write is ignored while halted. -/
def regWrite (idx : PortIndex) (w : Word) (s : State) : Result :=
  match portReg idx with
  | .srst => .next (s.withCore s.core.resetAll)
  | r =>
    if s.core.halted then .next s
    else
      match r with
      | .cmd => runWord w s
      | .ctrl => .next (s.withCore (writeCtrl w s.core))
      | .vlen i => .next (s.withCore (writeVlen i w s.core))
      | .vdata i j => .next (s.withCore (writeVdata i j w s.core))
      | _ => .next (s.withCore (s.core.raise .illegalOperation (accessInfo true idx)))

/-- R9, R240: one host input, complete before the next is accepted. -/
def transact (t : HostInput) (s : State) : Result :=
  match t with
  | .read idx => .next (regRead idx s)
  | .write idx w => regWrite idx w s
  | .hardReset => .next (s.withCore s.core.resetAll)

/-- The host input that hands an opcode-table word to CORE: a `RegWrite` to `CMD` (R60). -/
def commandInput (nbits w : Nat) : HostInput := .write cmdIdx (tableWord nbits w)

end Sys2Proof.Machine
end

