-- ==== Sys2Proof/Machine/Step.lean ====
section
/-! DEFINITION. One step: the next host input and its whole effect (R9). -/

namespace Sys2Proof.Machine

open Sys2Proof

/-- R9: CORE "never acts on its own": with no host input left nothing changes. DESIGN CHOICE (assumption 3). -/
def step (s : State) : Host.Outcome State Fault Refusal :=
  match s.pending with
  | [] => .next s
  | t :: rest => transact t (s.withPending rest)

/-- `s` whose next host input writes this instruction's word to `CMD` (R60, R67). DESIGN CHOICE (assumption 4). -/
def State.withFetchWord (s : State) (nbits w : Nat) : State :=
  s.withPending (commandInput nbits w :: s.pending)

end Sys2Proof.Machine
end

