-- ==== Sys2Proof/Machine/Message.lean ====
section
/-! DEFINITION. The message functions of 43_chaining.md (R180, R181, R187), computed by the host and not by CORE, and the host inputs that realise them through the port (R69, R193). -/

namespace Sys2Proof.Machine

open Sys2Proof

/-- R180: `Pad`, zero bytes up to a multiple of 8. -/
def padMessage (m : List Byte) : List Byte := m ++ List.replicate ((8 - m.length % 8) % 8) 0

/-- R181: `Blocks`, the block `P_i` from bytes `8i .. 8i+7` (R54). A rest of fewer than 8 bytes makes no block. -/
def blocksOf : List Byte → List Block
  | b0 :: b1 :: b2 :: b3 :: b4 :: b5 :: b6 :: b7 :: rest =>
    resize 64 (Vec.fromBytes [b0, b1, b2, b3, b4, b5, b6, b7]).bits :: blocksOf rest
  | _ => []

/-- R181: `Bytes`, the bytes of each block in order. -/
def bytesOf (bs : List Block) : List Byte := bs.flatMap fun b => Vec.toBytes ⟨64, b⟩

/-- R187: `EncryptMessage(mode, m, Key, IV, n)`. -/
def encryptMessage (mode : Mode) (m : List Byte) (key iv : Block) (n : Nat) : List Byte :=
  bytesOf (encryptBlocks mode key iv n (blocksOf (padMessage m)))

/-- R187: `DecryptMessage(mode, c, Key, IV, n)`, defined only for a whole number of blocks; any other length is refused,
not padded. -/
def decryptMessage (mode : Mode) (c : List Byte) (key iv : Block) (n : Nat) : Option (List Byte) :=
  if c.length % 8 = 0 then some (bytesOf (decryptBlocks mode key iv n (blocksOf c))) else none

/-- The register field that names `V[i]`. -/
def regNumOf (i : Fin 8) : RegNum := BitVec.ofNat 4 i.val

/-- R60: a command issued through the port. -/
def issue (i : Instr) : HostInput := .write cmdIdx (encode i)

/-- R69: the two words of a block. -/
def blockWords (b : Block) : List Word := [Vec.word ⟨64, b⟩ 0, Vec.word ⟨64, b⟩ 1]

/-- R69: four bytes of the message as one data word, `b0<<24 | b1<<16 | b2<<8 | b3`. -/
def packWord (b0 b1 b2 b3 : Byte) : Word := b0 ++ b1 ++ b2 ++ b3

/-- R69: the four bytes of a data word, unpacked as `packWord` packs them. -/
def wordBytes (w : Word) : List Byte := [w.extractLsb' 24 8, w.extractLsb' 16 8, w.extractLsb' 8 8, w.extractLsb' 0 8]

/-- R69: the bytes of the words read back, in order. -/
def bytesOfWords (ws : List Word) : List Byte := ws.flatMap wordBytes

/-- R69: the block that the two words `VDATA_y[0]`, `VDATA_y[1]` hold, positions 0..31 in the first (R55). -/
def blockOfWords (w0 w1 : Word) : Block := w0 ++ w1

/-- R69, R193: the result blocks that the words read back hold, two words a block. A last odd word makes no block. -/
def blocksOfWords : List Word → List Block
  | w0 :: w1 :: rest => blockOfWords w0 w1 :: blocksOfWords rest
  | _ => []

/-- R69: a block loaded into `V[i]`, the length first (R243). -/
def loadBlock (i : Fin 8) (b : Block) : List HostInput :=
  [.write (vlenIdx i) 64, .write (vdataIdx i 0) (Vec.word ⟨64, b⟩ 0), .write (vdataIdx i 1) (Vec.word ⟨64, b⟩ 1)]

/-- R69: a result block read back from `V[i]`. -/
def readBlock (i : Fin 8) : List HostInput := [.read (vdataIdx i 0), .read (vdataIdx i 1)]

/-- R193 steps 1 to 4: the key through `V[a]`, `CTRL`, for CBC and CFB the IV through `V[b]`, and `MSTART`. DESIGN CHOICE:
steps 1 to 3 in the order written, where R193 allows any (assumption 16). -/
def setupInputs (a b : Fin 8) (mode : Mode) (dir : Dir) (nr : BitVec 8) (key iv : Block) : List HostInput :=
  loadBlock a key ++ [issue (.ldkey (regNumOf a)), .write ctrlIdx (ctrlWordOf nr mode dir)] ++
    (if mode = .none then [] else loadBlock b iv ++ [issue (.ldiv (regNumOf b))]) ++ [issue .mstart]

/-- R193 step 5 for one block: load it into `V[x]`, `MBLK y, x`, read `V[y]` back. -/
def blockInputs (x y : Fin 8) (b : Block) : List HostInput :=
  loadBlock x b ++ [issue (.mblk (regNumOf y) (regNumOf x))] ++ readBlock y

/-- R193: the host sequence for a message given as blocks, ending with the read of `STATUS` (step 6). DESIGN CHOICE: one
`x` and one `y` for the whole message, where R193 lets each block use some `V[x]` and `V[y]` (assumption 16). -/
def messageInputs (a b x y : Fin 8) (mode : Mode) (dir : Dir) (nr : BitVec 8) (key iv : Block) (bs : List Block) :
    List HostInput :=
  setupInputs a b mode dir nr key iv ++ bs.flatMap (blockInputs x y) ++ [.read statusIdx]

end Sys2Proof.Machine
end

