-- ==== Sys2Proof/Safety.lean ====
section
/-! DEFINITION. What counts as a safe state and as a run gone wrong: the invariants of R33, what `FAULTINFO` records (R211, R212), and the fault a command's operands raise (R211). -/

namespace Sys2Proof.Machine

open Sys2Proof

/-- R214: a state with `STATUS.FAULT ≠ 0` has gone wrong. -/
def CoreState.goneWrong (c : CoreState) : Prop := c.fault ≠ none

/-- R33, the clauses the types of the fields leave open: every vector register within its capacity, at least one round,
and `FAULTINFO` zero while no fault is recorded. -/
abbrev CoreState.Inv (c : CoreState) : Prop :=
  (∀ i : Fin 8, (c.vec i).len ≤ 128) ∧ c.nr ≠ 0 ∧ (c.fault = none → c.faultInfo = 0)

/-- R211, the rows a legal command raises: the kind its operands cause in this state, or none. -/
def operandFault (i : Instr) (c : CoreState) : Option FaultKind :=
  match i with
  | .vxor _ va vb | .frnd _ va vb =>
    if (srcVec c va).len ≠ (srcVec c vb).len then some .lengthMismatch else none
  | .ldkey va | .ldiv va => if (srcVec c va).len ≠ 64 then some .lengthMismatch else none
  | .bsplit va | .enc _ va | .dec _ va | .mblk _ va =>
    if (srcVec c va).len ≠ 64 then some .invalidBlockLength else none
  | .vslice _ va start stop =>
    if start.toNat > stop.toNat ∨ stop.toNat > (srcVec c va).len then some .indexOutOfRange else none
  | .vzero _ len => if len.toNat > 128 then some .capacityExceeded else none
  | .vcat _ va vb => if (srcVec c va).len + (srcVec c vb).len > 128 then some .capacityExceeded else none
  | .vshr _ _ _ | .vshl _ _ _ | .subkey _ _ | .rnde _ | .rndd _ | .bjoin _ | .mstart => none

/-- R211, R215: the one kind an instruction's own check can raise, if it has a check. -/
def ownFault (i : Instr) : Option FaultKind :=
  match i with
  | .vxor _ _ _ | .frnd _ _ _ | .ldkey _ | .ldiv _ => some .lengthMismatch
  | .bsplit _ | .enc _ _ | .dec _ _ | .mblk _ _ => some .invalidBlockLength
  | .vslice _ _ _ _ => some .indexOutOfRange
  | .vzero _ _ | .vcat _ _ _ => some .capacityExceeded
  | .vshr _ _ _ | .vshl _ _ _ | .subkey _ _ | .rnde _ | .rndd _ | .bjoin _ | .mstart => none

/-- R211, R212: what `FAULTINFO` can hold beside each fault code. A fault of a command's own check records a legal
command that raises that kind; a capacity fault may also record a write of some `VLEN_i`; `IllegalOperation` records a
word that is no command, as every record of a register access is (its top byte `0xFF` is never an opcode, R86). -/
def CoreState.faultRecordSound (c : CoreState) : Prop :=
  match c.fault with
  | none => True
  | some .illegalOperation => ∃ e, decode c.faultInfo = .error e
  | some .capacityExceeded =>
    (∃ i, decode c.faultInfo = .ok i ∧ ownFault i = some .capacityExceeded) ∨
      ∃ n : Fin 8, c.faultInfo = accessInfo true (vlenIdx n)
  | some .lengthMismatch => ∃ i, decode c.faultInfo = .ok i ∧ ownFault i = some .lengthMismatch
  | some .invalidBlockLength => ∃ i, decode c.faultInfo = .ok i ∧ ownFault i = some .invalidBlockLength
  | some .indexOutOfRange => ∃ i, decode c.faultInfo = .ok i ∧ ownFault i = some .indexOutOfRange

/-- R83: the destination register field, of the commands that have one. -/
def destOf (i : Instr) : Option RegNum :=
  match i with
  | .vzero vd _ | .vshr vd _ _ | .vshl vd _ _ | .vxor vd _ _ | .vcat vd _ _ | .vslice vd _ _ _ => some vd
  | .subkey vd _ | .frnd vd _ _ | .bjoin vd | .enc vd _ | .dec vd _ | .mblk vd _ => some vd
  | .ldkey _ | .bsplit _ | .rnde _ | .rndd _ | .ldiv _ | .mstart => none

/-- The command's whole effect is a vector register (R111 to R116, R134, R135, R162). -/
def isVectorOnly (i : Instr) : Bool :=
  match i with
  | .vzero _ _ | .vshr _ _ _ | .vshl _ _ _ | .vxor _ _ _ | .vcat _ _ _ | .vslice _ _ _ _ => true
  | .subkey _ _ | .frnd _ _ _ | .bjoin _ => true
  | .ldkey _ | .bsplit _ | .rnde _ | .rndd _ | .enc _ _ | .dec _ _ | .ldiv _ | .mstart | .mblk _ _ => false

/-- Commands one after another, stopping where one gives no next state. -/
def execAll : List Instr → State → Result
  | [], s => .next s
  | i :: is, s =>
    match exec i s with
    | .next t => execAll is t
    | .fault r => .fault r
    | .refused r => .refused r

/-- R163: the command sequence `BSPLIT va; RNDE 0; ...; RNDE NR-1; BJOIN vd`. -/
def encSteps (vd va : RegNum) (nr : Nat) : List Instr :=
  [.bsplit va] ++ (List.range nr).map (fun r => .rnde (BitVec.ofNat 12 r)) ++ [.bjoin vd]

/-- R164: the command sequence `BSPLIT va; RNDD NR-1; ...; RNDD 0; BJOIN vd`. -/
def decSteps (vd va : RegNum) (nr : Nat) : List Instr :=
  [.bsplit va] ++ (List.range nr).reverse.map (fun r => .rndd (BitVec.ofNat 12 r)) ++ [.bjoin vd]

/-- The host's side is as before: no input taken, no word read. -/
def State.sameHost (s t : State) : Prop := t.pending = s.pending ∧ t.observed = s.observed

/-- R26: the three fields of `CTRL` are as before. -/
def CoreState.sameCtrl (c d : CoreState) : Prop := d.nr = c.nr ∧ d.mode = c.mode ∧ d.dir = c.dir

/-- R27, R212: after a command `STATUS.FAULT` and `FAULTINFO` are as before, or the command's whole effect was its fault
entry. -/
def faultEntryOnly (i : Instr) (c d : CoreState) : Prop :=
  (d.fault = c.fault ∧ d.faultInfo = c.faultInfo) ∨
    (c.fault = none ∧ ∃ k, d = { c with fault := some k, faultInfo := encode i })

/-- Two CORE states that agree on everything but bit values: the same vector lengths, the same fault state. -/
def CoreState.sameLengths (c d : CoreState) : Prop :=
  (∀ i : Fin 8, (c.vec i).len = (d.vec i).len) ∧ c.fault = d.fault ∧ c.faultInfo = d.faultInfo

end Sys2Proof.Machine
end

