-- ==== Sys2Proof/Certificates/Slice0/Obligations.lean ====
section
/-! DEFINITION. The statements for the provers, each formalising numbered rules of spec/ over the model. -/

open Sys2Proof Sys2Proof.Machine

/-! ### Encoding -/

/-- The words of R83's own example and of T30-1, T30-9, T30-10, T30-14, T30-18, T30-19 decode to what they stand for. -/
def Obligations.SpecWordsDecode : Prop :=
  decode 0x15632040 = .ok (.vslice 6 3 32 64) ∧ decode 0x10300008 = .ok (.vzero 3 8) ∧
  decode 0x21700FFF = .ok (.subkey 7 4095) ∧ decode 0x22602000 = .ok (.frnd 6 0 2) ∧
  decode 0x33200000 = .ok (.bjoin 2) ∧ decode 0x41000000 = .ok .mstart ∧ decode 0x42420000 = .ok (.mblk 4 2)

/-- R81, R83: decoding the word of any well-formed instruction gives that instruction, every operand included. -/
def Obligations.DecodeOfEncode : Prop :=
  ∀ i : Instr, i.WellFormed → decode (encode i) = .ok i

/-- R83, R85, R87: a word that decodes is the word of its instruction, and its instruction is well formed. -/
def Obligations.EncodeOfDecode : Prop :=
  ∀ (w : Word) (i : Instr), decode w = .ok i → encode i = w ∧ i.WellFormed

/-- R83, R87: every word either matches exactly one row of R83's table and is a command, or matches none and is none. -/
def Obligations.EveryWordMatchesOneRowOrNone : Prop :=
  let rows : List (Word × Word) :=
    [(0xFF8FF000, 0x10000000), (0xFF88F000, 0x11000000), (0xFF88F000, 0x12000000), (0xFF888FFF, 0x13000000),
     (0xFF888FFF, 0x14000000), (0xFF880000, 0x15000000), (0xFFF8FFFF, 0x20000000), (0xFF8FF000, 0x21000000),
     (0xFF888FFF, 0x22000000), (0xFFF8FFFF, 0x30000000), (0xFFFFF000, 0x31000000), (0xFFFFF000, 0x32000000),
     (0xFF8FFFFF, 0x33000000), (0xFF88FFFF, 0x34000000), (0xFF88FFFF, 0x35000000), (0xFFF8FFFF, 0x40000000),
     (0xFFFFFFFF, 0x41000000), (0xFF88FFFF, 0x42000000)]
  ∀ w : Word,
    ((∃ i, decode w = .ok i) ∧ ∃! r, r ∈ rows ∧ w &&& r.1 = r.2) ∨
    ((∃ e, decode w = .error e) ∧ ∀ r ∈ rows, w &&& r.1 ≠ r.2)

/-- R84, R85, R86, R88: a word that is no command raises `IllegalOperation` with the word as `FAULTINFO`, and does nothing
else. -/
def Obligations.IllegalWordFaults : Prop :=
  ∀ (s : State) (w : Word) (e : DecodeError) (rest : List HostInput),
    s.core.fault = none → s.pending = .write 0x03 w :: rest → decode w = .error e →
    step s = .next { s with
      core := { s.core with fault := some .illegalOperation, faultInfo := w }, pending := rest }

/-- The model's convention (assumption 5, DEDUCED), not a rule's: `exec` of a term with a register field 8..15, which no
word decodes to, is `IllegalOperation` with its word, whatever its operands hold. R85: that word is no command. -/
def Obligations.RegisterFieldAboveSevenFaults : Prop :=
  ∀ (i : Instr) (s : State), s.core.fault = none → ¬ i.WellFormed →
    exec i s = .next { s with core := { s.core with fault := some .illegalOperation, faultInfo := encode i } } ∧
    ∃ e, decode (encode i) = .error e

/-! ### The step -/

/-- R60, R88: when the next host input writes a command word to `CMD` while CORE is not halted, the step is that command's
execution, the input taken. While it is halted the equation holds by the model's convention that `exec` of any term then
changes nothing (assumption 5, DEDUCED), as R68 ignores the write. -/
def Obligations.StepRunsDecodedCommand : Prop :=
  ∀ (s : State) (w : Word) (i : Instr) (rest : List HostInput),
    s.pending = .write 0x03 w :: rest → decode w = .ok i →
    step s = exec i { s with pending := rest }

/-- R9, R10, R248: every host input completes, exactly that input is taken, and a word is returned exactly by a read. With
none left the step changes nothing (assumption 3, the model's choice). -/
def Obligations.EveryInputCompletes : Prop :=
  ∀ s : State, ∃ t, step s = .next t ∧ t.pending = s.pending.tail ∧ (s.pending = [] → t = s) ∧
    (∀ idx rest, s.pending = .read idx :: rest → ∃ w, t.observed = s.observed ++ [w]) ∧
    ((∀ idx rest, s.pending ≠ .read idx :: rest) → t.observed = s.observed)

/-! ### The BitVector ALU -/

/-- R111: `VZERO` writes the zero vector of the given length, and raises `CapacityExceeded` above 128. -/
def Obligations.VzeroWritesZeroVector : Prop :=
  ∀ (vd : RegNum) (len : Imm) (s : State), s.core.fault = none → Instr.WellFormed (.vzero vd len) →
    encode (.vzero vd len) = 0x10#8 ++ vd ++ 0#4 ++ 0#4 ++ len ∧
    (len.toNat ≤ 128 →
      exec (.vzero vd len) s = .next (s.withCore (s.core.setVec (regIdx vd) ⟨len.toNat, 0⟩))) ∧
    (128 < len.toNat →
      exec (.vzero vd len) s = .next (s.withCore
        { s.core with fault := some .capacityExceeded, faultInfo := encode (.vzero vd len) }))

/-- R112, R102: `VSHR` writes a vector of the source's length whose position `i` is `v[i - n]` for `i ≥ n`, else 0. -/
def Obligations.VshrShiftsTowardHigherPositions : Prop :=
  ∀ (vd va : RegNum) (n : Imm) (s : State), s.core.fault = none → Instr.WellFormed (.vshr vd va n) →
    encode (.vshr vd va n) = 0x11#8 ++ vd ++ va ++ 0#4 ++ n ∧
    ∃ x : Vec, exec (.vshr vd va n) s = .next (s.withCore (s.core.setVec (regIdx vd) x)) ∧
      x.len = (s.core.vec (regIdx va)).len ∧
      ∀ i, i < x.len → x.pos i = if n.toNat ≤ i then (s.core.vec (regIdx va)).pos (i - n.toNat) else false

/-- R113, R103: `VSHL` writes a vector of the source's length whose position `i` is `v[i + n]` for `i + n < len`, else 0. -/
def Obligations.VshlShiftsTowardLowerPositions : Prop :=
  ∀ (vd va : RegNum) (n : Imm) (s : State), s.core.fault = none → Instr.WellFormed (.vshl vd va n) →
    encode (.vshl vd va n) = 0x12#8 ++ vd ++ va ++ 0#4 ++ n ∧
    ∃ x : Vec, exec (.vshl vd va n) s = .next (s.withCore (s.core.setVec (regIdx vd) x)) ∧
      x.len = (s.core.vec (regIdx va)).len ∧
      ∀ i, i < x.len →
        x.pos i = if i + n.toNat < x.len then (s.core.vec (regIdx va)).pos (i + n.toNat) else false

/-- R114, R104: `VXOR` writes the bitwise XOR of two vectors of equal length, and raises `LengthMismatch` otherwise. -/
def Obligations.VxorWritesBitwiseXor : Prop :=
  ∀ (vd va vb : RegNum) (s : State), s.core.fault = none → Instr.WellFormed (.vxor vd va vb) →
    encode (.vxor vd va vb) = 0x13#8 ++ vd ++ va ++ vb ++ 0#12 ∧
    ((s.core.vec (regIdx va)).len = (s.core.vec (regIdx vb)).len →
      ∃ x : Vec, exec (.vxor vd va vb) s = .next (s.withCore (s.core.setVec (regIdx vd) x)) ∧
        x.len = (s.core.vec (regIdx va)).len ∧
        ∀ i, i < x.len → x.pos i = ((s.core.vec (regIdx va)).pos i ^^ (s.core.vec (regIdx vb)).pos i)) ∧
    ((s.core.vec (regIdx va)).len ≠ (s.core.vec (regIdx vb)).len →
      exec (.vxor vd va vb) s = .next (s.withCore
        { s.core with fault := some .lengthMismatch, faultInfo := encode (.vxor vd va vb) }))

/-- R115, R105: `VCAT` writes `a`'s bits followed by `b`'s, and raises `CapacityExceeded` above 128 bits. -/
def Obligations.VcatWritesConcatenation : Prop :=
  ∀ (vd va vb : RegNum) (s : State), s.core.fault = none → Instr.WellFormed (.vcat vd va vb) →
    encode (.vcat vd va vb) = 0x14#8 ++ vd ++ va ++ vb ++ 0#12 ∧
    ((s.core.vec (regIdx va)).len + (s.core.vec (regIdx vb)).len ≤ 128 →
      ∃ x : Vec, exec (.vcat vd va vb) s = .next (s.withCore (s.core.setVec (regIdx vd) x)) ∧
        x.len = (s.core.vec (regIdx va)).len + (s.core.vec (regIdx vb)).len ∧
        (∀ i, i < (s.core.vec (regIdx va)).len → x.pos i = (s.core.vec (regIdx va)).pos i) ∧
        ∀ j, j < (s.core.vec (regIdx vb)).len →
          x.pos ((s.core.vec (regIdx va)).len + j) = (s.core.vec (regIdx vb)).pos j) ∧
    (128 < (s.core.vec (regIdx va)).len + (s.core.vec (regIdx vb)).len →
      exec (.vcat vd va vb) s = .next (s.withCore
        { s.core with fault := some .capacityExceeded, faultInfo := encode (.vcat vd va vb) }))

/-- R116, R106: `VSLICE` writes positions `start ≤ i < end`, and raises `IndexOutOfRange` if `start > end` or
`end > len(v)`. -/
def Obligations.VsliceWritesSubvector : Prop :=
  ∀ (vd va : RegNum) (start stop : Bound) (s : State), s.core.fault = none →
    Instr.WellFormed (.vslice vd va start stop) →
    encode (.vslice vd va start stop) = 0x15#8 ++ vd ++ va ++ start ++ stop ∧
    (start.toNat ≤ stop.toNat ∧ stop.toNat ≤ (s.core.vec (regIdx va)).len →
      ∃ x : Vec, exec (.vslice vd va start stop) s = .next (s.withCore (s.core.setVec (regIdx vd) x)) ∧
        x.len = stop.toNat - start.toNat ∧
        ∀ j, j < x.len → x.pos j = (s.core.vec (regIdx va)).pos (start.toNat + j)) ∧
    (start.toNat > stop.toNat ∨ stop.toNat > (s.core.vec (regIdx va)).len →
      exec (.vslice vd va start stop) s = .next (s.withCore
        { s.core with fault := some .indexOutOfRange, faultInfo := encode (.vslice vd va start stop) }))

/-! ### Key, subkey and round function -/

/-- R133: `LDKEY` copies a 64-bit vector into `KEY`, and raises `LengthMismatch` for any other length. -/
def Obligations.LdkeyLoadsKey : Prop :=
  ∀ (va : RegNum) (s : State), s.core.fault = none → Instr.WellFormed (.ldkey va) →
    encode (.ldkey va) = 0x20#8 ++ 0#4 ++ va ++ 0#4 ++ 0#12 ∧
    (∀ k : Block, s.core.vec (regIdx va) = ⟨64, k⟩ → exec (.ldkey va) s = .next (s.withCore (s.core.setKey k))) ∧
    ((s.core.vec (regIdx va)).len ≠ 64 →
      exec (.ldkey va) s = .next (s.withCore
        { s.core with fault := some .lengthMismatch, faultInfo := encode (.ldkey va) }))

/-- R134, R131: `SUBKEY` writes the 32-bit vector whose position `i` is `Key[i - 8r]` for `i ≥ 8r`, else 0, for every `r`
of the immediate. -/
def Obligations.SubkeyWritesRoundSubkey : Prop :=
  ∀ (vd : RegNum) (r : Imm) (s : State), s.core.fault = none → Instr.WellFormed (.subkey vd r) →
    encode (.subkey vd r) = 0x21#8 ++ vd ++ 0#4 ++ 0#4 ++ r ∧
    ∃ x : Half, exec (.subkey vd r) s = .next (s.withCore (s.core.setVec (regIdx vd) ⟨32, x⟩)) ∧
      ∀ i, i < 32 → x.getMsbD i = if 8 * r.toNat ≤ i then s.core.key.getMsbD (i - 8 * r.toNat) else false

/-- R135, R130: `FRND` writes `F(h, k)` of two vectors of equal length, position by position, and raises `LengthMismatch`
otherwise. -/
def Obligations.FrndWritesRoundFunction : Prop :=
  ∀ (vd va vb : RegNum) (s : State), s.core.fault = none → Instr.WellFormed (.frnd vd va vb) →
    encode (.frnd vd va vb) = 0x22#8 ++ vd ++ va ++ vb ++ 0#12 ∧
    ((s.core.vec (regIdx va)).len = (s.core.vec (regIdx vb)).len →
      ∃ x : Vec, exec (.frnd vd va vb) s = .next (s.withCore (s.core.setVec (regIdx vd) x)) ∧
        x.len = (s.core.vec (regIdx va)).len ∧
        ∀ i, i < x.len → x.pos i =
          ((if i + 3 < x.len then (s.core.vec (regIdx va)).pos (i + 3) else false) ^^
            (if 2 ≤ i then (s.core.vec (regIdx vb)).pos (i - 2) else false))) ∧
    ((s.core.vec (regIdx va)).len ≠ (s.core.vec (regIdx vb)).len →
      exec (.frnd vd va vb) s = .next (s.withCore
        { s.core with fault := some .lengthMismatch, faultInfo := encode (.frnd vd va vb) }))

/-- R130, R131, integer views: `F(h, k) = ((h << 3) & 0xFFFFFFFF) ^ (k >> 2)` for 32-bit halves, and
`Subkey(Key, r) = hi >> 8r` with `hi` the first 32 positions of the key, 0 from `r = 4` on. -/
def Obligations.RoundIntegerViews : Prop :=
  (∀ h k : Half, (roundF h k).toNat = ((h.toNat <<< 3) &&& 0xFFFFFFFF) ^^^ (k.toNat >>> 2)) ∧
  ∀ (key : Block) (r : Nat),
    (roundSubkey key r).toNat = if 8 * r < 32 then (key.toNat >>> 32) >>> (8 * r) else 0

/-- R132: two keys that agree on positions 0..31 have the same subkeys and encrypt and decrypt identically. A round count of
0 is included by the model's convention (assumption 13, DEDUCED). -/
def Obligations.KeyTailIsUnused : Prop :=
  ∀ (key key' : Block), (∀ i, i < 32 → key.getMsbD i = key'.getMsbD i) →
    (∀ r, roundSubkey key r = roundSubkey key' r) ∧
    ∀ (b : Block) (n : Nat), encrypt b key n = encrypt b key' n ∧ decrypt b key n = decrypt b key' n

/-- R136: F is linear over bit positions in both operands jointly, at every length, maps zero to zero, and is not
injective in `h`: it discards `h[0..2]`. -/
def Obligations.RoundFunctionIsLinear : Prop :=
  (∀ (n : Nat) (a b k m : BitVec n),
    roundF (a ^^^ b) (k ^^^ m) = roundF a k ^^^ roundF b m ∧ roundF (0 : BitVec n) 0 = 0) ∧
  ∀ (n : Nat) (h h' k : BitVec n), (∀ i, 3 ≤ i → h.getMsbD i = h'.getMsbD i) → roundF h k = roundF h' k

/-! ### The Feistel network -/

/-- R159: `BSPLIT` loads the halves of a 64-bit block into `L` and `R`, and raises `InvalidBlockLength` otherwise. -/
def Obligations.BsplitLoadsHalves : Prop :=
  ∀ (va : RegNum) (s : State), s.core.fault = none → Instr.WellFormed (.bsplit va) →
    encode (.bsplit va) = 0x30#8 ++ 0#4 ++ va ++ 0#4 ++ 0#12 ∧
    (∀ b : Block, s.core.vec (regIdx va) = ⟨64, b⟩ →
      ∃ l r : Half, exec (.bsplit va) s = .next (s.withCore { s.core with left := l, right := r }) ∧
        ∀ i, i < 32 → l.getMsbD i = b.getMsbD i ∧ r.getMsbD i = b.getMsbD (32 + i)) ∧
    ((s.core.vec (regIdx va)).len ≠ 64 →
      exec (.bsplit va) s = .next (s.withCore
        { s.core with fault := some .invalidBlockLength, faultInfo := encode (.bsplit va) }))

/-- R160, R151: `RNDE r` sets `(L, R)` to `(F(L, subkey_r) xor R, L)`, both from the old pair. -/
def Obligations.RndeRunsOneEncryptionRound : Prop :=
  ∀ (r : Imm) (s : State), s.core.fault = none →
    encode (.rnde r) = 0x31#8 ++ 0#4 ++ 0#4 ++ 0#4 ++ r ∧
    exec (.rnde r) s = .next (s.withCore { s.core with
      left := roundF s.core.left (roundSubkey s.core.key r.toNat) ^^^ s.core.right, right := s.core.left })

/-- R161, R152: `RNDD r` sets `(L, R)` to `(R, F(R, subkey_r) xor L)`, both from the old pair. `RNDD r` directly after
`RNDE r` restores `L` and `R`, and the reverse. -/
def Obligations.RnddRunsOneDecryptionRound : Prop :=
  ∀ (r : Imm) (s : State), s.core.fault = none →
    encode (.rndd r) = 0x32#8 ++ 0#4 ++ 0#4 ++ 0#4 ++ r ∧
    exec (.rndd r) s = .next (s.withCore { s.core with
      left := s.core.right, right := roundF s.core.right (roundSubkey s.core.key r.toNat) ^^^ s.core.left }) ∧
    execAll [.rnde r, .rndd r] s = .next s ∧ execAll [.rndd r, .rnde r] s = .next s

/-- R162: `BJOIN` writes the 64-bit vector `L` followed by `R`. -/
def Obligations.BjoinWritesJoinedHalves : Prop :=
  ∀ (vd : RegNum) (s : State), s.core.fault = none → Instr.WellFormed (.bjoin vd) →
    encode (.bjoin vd) = 0x33#8 ++ vd ++ 0#4 ++ 0#4 ++ 0#12 ∧
    ∃ x : Block, exec (.bjoin vd) s = .next (s.withCore (s.core.setVec (regIdx vd) ⟨64, x⟩)) ∧
      ∀ i, i < 32 → x.getMsbD i = s.core.left.getMsbD i ∧ x.getMsbD (32 + i) = s.core.right.getMsbD i

/-- R163, R153: `ENC` writes `Encrypt(V[va], KEY, CTRL.NR)` and leaves the final pair in `L`, `R`; a source that is not 64
bits is `InvalidBlockLength` with nothing else written. -/
def Obligations.EncEncryptsBlock : Prop :=
  ∀ (vd va : RegNum) (s : State), s.core.fault = none → Instr.WellFormed (.enc vd va) →
    encode (.enc vd va) = 0x34#8 ++ vd ++ va ++ 0#4 ++ 0#12 ∧
    (∀ b : Block, s.core.vec (regIdx va) = ⟨64, b⟩ →
      ∃ l r : Half, encRounds s.core.key s.core.nr.toNat (leftHalf b, rightHalf b) = (l, r) ∧
        exec (.enc vd va) s =
          .next (s.withCore ({ s.core with left := l, right := r }.setVec (regIdx vd) ⟨64, l ++ r⟩)) ∧
        encrypt b s.core.key s.core.nr.toNat = l ++ r) ∧
    ((s.core.vec (regIdx va)).len ≠ 64 →
      exec (.enc vd va) s = .next (s.withCore
        { s.core with fault := some .invalidBlockLength, faultInfo := encode (.enc vd va) }))

/-- R164, R154: `DEC` writes `Decrypt(V[va], KEY, CTRL.NR)` and leaves the final pair in `L`, `R`; a source that is not 64
bits is `InvalidBlockLength` with nothing else written. -/
def Obligations.DecDecryptsBlock : Prop :=
  ∀ (vd va : RegNum) (s : State), s.core.fault = none → Instr.WellFormed (.dec vd va) →
    encode (.dec vd va) = 0x35#8 ++ vd ++ va ++ 0#4 ++ 0#12 ∧
    (∀ b : Block, s.core.vec (regIdx va) = ⟨64, b⟩ →
      ∃ l r : Half, decRounds s.core.key s.core.nr.toNat (leftHalf b, rightHalf b) = (l, r) ∧
        exec (.dec vd va) s =
          .next (s.withCore ({ s.core with left := l, right := r }.setVec (regIdx vd) ⟨64, l ++ r⟩)) ∧
        decrypt b s.core.key s.core.nr.toNat = l ++ r) ∧
    ((s.core.vec (regIdx va)).len ≠ 64 →
      exec (.dec vd va) s = .next (s.withCore
        { s.core with fault := some .invalidBlockLength, faultInfo := encode (.dec vd va) }))

/-- R155: each round is inverted by the other, and block decryption inverts block encryption and the reverse, for every
block, key and round count; block encryption is a bijection on blocks. That a round count of 0 is included is the model's
convention (assumption 13, DEDUCED): R155 speaks of `n ≥ 1`. -/
def Obligations.DecryptionInvertsEncryption : Prop :=
  (∀ (key : Block) (r : Nat) (p : Half × Half), decRound key r (encRound key r p) = p ∧ encRound key r (decRound key r p) = p) ∧
  ∀ (b key : Block) (n : Nat), decrypt (encrypt b key n) key n = b ∧ encrypt (decrypt b key n) key n = b ∧
    Function.Bijective fun x => encrypt x key n

/-- R157: a decryption round is the encryption round between two swaps, and block decryption is the encryption rounds run
with indices `n-1` down to 0 between two swaps of the outer pair. That `n = 0` is included is the model's convention
(assumption 13, DEDUCED): R154 has `n ≥ 1`. -/
def Obligations.ClassicalFeistelForm : Prop :=
  (∀ (key : Block) (r : Nat) (p : Half × Half), decRound key r p = (encRound key r p.swap).swap) ∧
  ∀ (b key : Block) (n : Nat),
    decrypt b key n = join ((List.range n).reverse.foldl (fun p r => encRound key r p) (halves b).swap).swap

/-- R163, R164: `ENC` has exactly the effect of `BSPLIT va; RNDE 0; ...; RNDE NR-1; BJOIN vd`, and `DEC` that of
`BSPLIT va; RNDD NR-1; ...; RNDD 0; BJOIN vd`. -/
def Obligations.CompositesEqualStepSequences : Prop :=
  ∀ (vd va : RegNum) (s : State) (b : Block), s.core.fault = none →
    RegNum.valid vd = true → RegNum.valid va = true → s.core.vec (regIdx va) = ⟨64, b⟩ →
    exec (.enc vd va) s = execAll (encSteps vd va s.core.nr.toNat) s ∧
    exec (.dec vd va) s = execAll (decSteps vd va s.core.nr.toNat) s

/-- R164, R155: `DEC vd, vx` right after `ENC vx, va` gives `V[vd]` the block `V[va]` held. -/
def Obligations.DecAfterEncRestoresBlock : Prop :=
  ∀ (vd vx va : RegNum) (s : State) (b : Block), s.core.fault = none →
    RegNum.valid vd = true → RegNum.valid vx = true → RegNum.valid va = true →
    s.core.vec (regIdx va) = ⟨64, b⟩ →
    ∃ t, execAll [.enc vx va, .dec vd vx] s = .next t ∧ t.core.vec (regIdx vd) = ⟨64, b⟩ ∧ t.core.fault = none

/-! ### Chaining -/

/-- R190: `LDIV` copies a 64-bit vector into `IV` and leaves `FEED` alone; any other length is `LengthMismatch`. -/
def Obligations.LdivLoadsIv : Prop :=
  ∀ (va : RegNum) (s : State), s.core.fault = none → Instr.WellFormed (.ldiv va) →
    encode (.ldiv va) = 0x40#8 ++ 0#4 ++ va ++ 0#4 ++ 0#12 ∧
    (∀ x : Block, s.core.vec (regIdx va) = ⟨64, x⟩ → exec (.ldiv va) s = .next (s.withCore (s.core.setIv x))) ∧
    ((s.core.vec (regIdx va)).len ≠ 64 →
      exec (.ldiv va) s = .next (s.withCore
        { s.core with fault := some .lengthMismatch, faultInfo := encode (.ldiv va) }))

/-- R191: `MSTART` copies `IV` into `FEED` and sets `BLKCNT` to 0, in every mode and at any time. -/
def Obligations.MstartBeginsMessage : Prop :=
  ∀ s : State, s.core.fault = none →
    encode .mstart = 0x41000000#32 ∧
    exec .mstart s = .next (s.withCore { s.core with feed := s.core.iv, blkcnt := 0 })

/-- R192: `MBLK` in all six cases of mode and direction, with `E` and `D` the block cipher under `KEY` and `CTRL.NR`: the
output, the new feed and the pair left in `L`, `R`; `BLKCNT` counts modulo 2^32; a source that is not 64 bits is
`InvalidBlockLength` with nothing else written. -/
def Obligations.MblkProcessesOneBlock : Prop :=
  ∀ (vd va : RegNum) (s : State), s.core.fault = none → Instr.WellFormed (.mblk vd va) →
    let k := s.core.key
    let n := s.core.nr.toNat
    let f := s.core.feed
    let after := fun (y feed' cipherOut : Block) => s.withCore ({ s.core with
      feed := feed', left := leftHalf cipherOut, right := rightHalf cipherOut,
      blkcnt := s.core.blkcnt + 1 }.setVec (regIdx vd) ⟨64, y⟩)
    encode (.mblk vd va) = 0x42#8 ++ vd ++ va ++ 0#4 ++ 0#12 ∧
    (∀ x : Block, s.core.vec (regIdx va) = ⟨64, x⟩ →
      (s.core.mode = .none → s.core.dir = .encrypt →
        exec (.mblk vd va) s = .next (after (encrypt x k n) f (encrypt x k n))) ∧
      (s.core.mode = .none → s.core.dir = .decrypt →
        exec (.mblk vd va) s = .next (after (decrypt x k n) f (decrypt x k n))) ∧
      (s.core.mode = .cbc → s.core.dir = .encrypt →
        exec (.mblk vd va) s =
          .next (after (encrypt (x ^^^ f) k n) (encrypt (x ^^^ f) k n) (encrypt (x ^^^ f) k n))) ∧
      (s.core.mode = .cbc → s.core.dir = .decrypt →
        exec (.mblk vd va) s = .next (after (decrypt x k n ^^^ f) x (decrypt x k n))) ∧
      (s.core.mode = .cfb → s.core.dir = .encrypt →
        exec (.mblk vd va) s = .next (after (encrypt f k n ^^^ x) (encrypt f k n ^^^ x) (encrypt f k n))) ∧
      (s.core.mode = .cfb → s.core.dir = .decrypt →
        exec (.mblk vd va) s = .next (after (encrypt f k n ^^^ x) x (encrypt f k n)))) ∧
    ((s.core.vec (regIdx va)).len ≠ 64 →
      exec (.mblk vd va) s = .next (s.withCore
        { s.core with fault := some .invalidBlockLength, faultInfo := encode (.mblk vd va) }))

/-- R188: decrypting an encrypted message returns the padded message, in every mode, for every key, IV and round count. A
round count of 0 is included by the model's convention (assumption 13, DEDUCED): R187 has `n ≥ 1`. -/
def Obligations.MessageRoundTrip : Prop :=
  ∀ (mode : Mode) (m : List Byte) (key iv : Block) (n : Nat),
    decryptMessage mode (encryptMessage mode m key iv n) key iv n = some (padMessage m) ∧
    (m.length % 8 = 0 → decryptMessage mode (encryptMessage mode m key iv n) key iv n = some m)

/-- R189 (b): under CBC and CFB encryption a change of exactly one plaintext block leaves every earlier ciphertext block
as it was and changes that block's ciphertext and every later one. A round count of 0 is included by the model's
convention (assumption 13, DEDUCED). -/
def Obligations.ChangedBlockChangesAllLaterCiphertext : Prop :=
  ∀ (mode : Mode) (key iv : Block) (n : Nat) (before after : List Block) (p p' : Block),
    mode ≠ .none → p ≠ p' →
    let c := encryptBlocks mode key iv n (before ++ p :: after)
    let c' := encryptBlocks mode key iv n (before ++ p' :: after)
    c.length = before.length + 1 + after.length ∧ c'.length = before.length + 1 + after.length ∧
    (∀ j, j < before.length → getElem? c j = getElem? c' j) ∧
    ∀ j, before.length ≤ j → j < c.length → getElem? c j ≠ getElem? c' j

/-- R193, R182 to R187: from any state that is not halted, the host's sequence for a message given as blocks runs to its
end without a fault, and the words read back are exactly those of the blocks of the mode's recurrence, followed by a
`STATUS` of 0. R69: unpacked, those words are the blocks, and their bytes the bytes of the blocks. The order of steps 1 to 3
and the one pair of registers for all blocks are the model's choice among those R193 allows (assumption 16). -/
def Obligations.HostSequenceComputesMessage : Prop :=
  ∀ (s : State) (a b x y : Fin 8) (mode : Mode) (dir : Dir) (nr : BitVec 8) (key iv : Block) (bs : List Block)
    (rest : List HostInput),
    s.core.fault = none → nr ≠ 0 → s.pending = messageInputs a b x y mode dir nr key iv bs ++ rest →
    ∃ (t : State) (ws : List Word), Sys2Proof.core.run (messageInputs a b x y mode dir nr key iv bs).length s = .next t ∧
      t.pending = rest ∧ t.core.fault = none ∧ t.core.blkcnt = BitVec.ofNat 32 bs.length ∧
      t.observed = s.observed ++ ws ++ [0] ∧ ws = (processBlocks mode dir key iv nr.toNat bs).flatMap blockWords ∧
      blocksOfWords ws = processBlocks mode dir key iv nr.toNat bs ∧
      bytesOfWords ws = bytesOf (processBlocks mode dir key iv nr.toNat bs)

/-! ### The register port -/

/-- R56, R55: where the invariants of R33 hold, a read of `VLEN_i` returns the length; in every state a read of
`VDATA_i[j]` returns the word whose bit `31 - k` is position `32j + k`, and 0 at and beyond the length; neither changes
CORE. -/
def Obligations.VectorWindowReads : Prop :=
  ∀ (s : State) (i : Fin 8) (j : Fin 4) (rest : List HostInput),
    (s.core.Inv → s.pending = .read (BitVec.ofNat 7 (0x20 + 8 * i.val)) :: rest →
      ∃ w : Word, w.toNat = (s.core.vec i).len ∧
        step s = .next { s with pending := rest, observed := s.observed ++ [w] }) ∧
    (s.pending = .read (BitVec.ofNat 7 (0x24 + 8 * i.val + j.val)) :: rest →
      ∃ w : Word, step s = .next { s with pending := rest, observed := s.observed ++ [w] } ∧
        ∀ k, k < 32 → w.getMsbD k =
          if 32 * j.val + k < (s.core.vec i).len then (s.core.vec i).pos (32 * j.val + k) else false)

/-- R57: a write of `VLEN_i` keeps the first `w` positions and extends the tail with zeros, and raises `CapacityExceeded`
above 128. -/
def Obligations.VlenWriteResizes : Prop :=
  ∀ (s : State) (i : Fin 8) (w : Word) (rest : List HostInput), s.core.fault = none →
    s.pending = .write (BitVec.ofNat 7 (0x20 + 8 * i.val)) w :: rest →
    (w.toNat ≤ 128 → ∃ x : Vec, step s = .next { s with core := s.core.setVec i x, pending := rest } ∧
      x.len = w.toNat ∧
      ∀ p, p < w.toNat → x.pos p = if p < (s.core.vec i).len then (s.core.vec i).pos p else false) ∧
    (128 < w.toNat → step s = .next { s with
      core := { s.core with
        fault := some .capacityExceeded, faultInfo := BitVec.ofNat 32 (0xFF000000 + 0x80 + 0x20 + 8 * i.val) }
      pending := rest })

/-- R58: a write of `VDATA_i[j]` sets the positions `32j .. 32j+31` below the length from the word, keeps every other
position and the length, and never faults. -/
def Obligations.VdataWriteSetsPositions : Prop :=
  ∀ (s : State) (i : Fin 8) (j : Fin 4) (w : Word) (rest : List HostInput), s.core.fault = none →
    s.pending = .write (BitVec.ofNat 7 (0x24 + 8 * i.val + j.val)) w :: rest →
    ∃ x : Vec, step s = .next { s with core := s.core.setVec i x, pending := rest } ∧
      x.len = (s.core.vec i).len ∧
      ∀ p, p < x.len → x.pos p =
        if 32 * j.val ≤ p ∧ p < 32 * j.val + 32 then w.getMsbD (p - 32 * j.val) else (s.core.vec i).pos p

/-- R59: a write of `CTRL` sets all three fields at once, or faults with `0xFF000081` and sets none. -/
def Obligations.CtrlWriteAllOrNone : Prop :=
  ∀ (s : State) (w : Word) (rest : List HostInput), s.core.fault = none → s.pending = .write 0x01 w :: rest →
    (w.toNat / 2 ^ 11 = 0 ∧ w.toNat % 256 ≠ 0 ∧ w.toNat / 256 % 4 ≠ 3 →
      ∃ m : Mode, m.field.toNat = w.toNat / 256 % 4 ∧
        step s = .next { s with
          core := { s.core with
            nr := BitVec.ofNat 8 w.toNat, mode := m,
            dir := if w.toNat / 1024 % 2 = 0 then .encrypt else .decrypt }
          pending := rest }) ∧
    (w.toNat / 2 ^ 11 ≠ 0 ∨ w.toNat % 256 = 0 ∨ w.toNat / 256 % 4 = 3 →
      step s = .next { s with
        core := { s.core with fault := some .illegalOperation, faultInfo := 0xFF000081 }, pending := rest })

/-- R53: while CORE is not halted, a read of an index whose register is write-only or reserved returns 0, a write to one
that is read-only or reserved does nothing, and each raises `IllegalOperation` with `0xFF000000 | (wr << 7) | idx`. -/
def Obligations.IllegalAccessFaults : Prop :=
  ∀ (s : State) (idx : PortIndex) (rest : List HostInput), s.core.fault = none →
    (s.pending = .read idx :: rest → (portReg idx).access.readable = false →
      step s = .next { s with
        core := { s.core with fault := some .illegalOperation, faultInfo := BitVec.ofNat 32 (0xFF000000 + idx.toNat) }
        pending := rest, observed := s.observed ++ [0] }) ∧
    ∀ w : Word, s.pending = .write idx w :: rest → (portReg idx).access.writable = false →
      step s = .next { s with
        core := { s.core with
          fault := some .illegalOperation, faultInfo := BitVec.ofNat 32 (0xFF000000 + 0x80 + idx.toNat) }
        pending := rest }

/-- R52: the reserved indices are exactly `0x07`, `0x10` to `0x1F`, offsets 1 to 3 of each vector window, and `0x60` to
`0x7F`; the read-only and write-only registers are exactly those of the map. -/
def Obligations.RegisterMapAccess : Prop :=
  ∀ idx : PortIndex,
    ((portReg idx).access = .reserved ↔
      idx.toNat = 0x07 ∨ (0x10 ≤ idx.toNat ∧ idx.toNat < 0x20) ∨ 0x60 ≤ idx.toNat ∨
        (0x20 ≤ idx.toNat ∧ idx.toNat < 0x60 ∧ 1 ≤ idx.toNat % 8 ∧ idx.toNat % 8 ≤ 3)) ∧
    ((portReg idx).access = .writeOnly ↔ idx.toNat = 0x03 ∨ idx.toNat = 0x06) ∧
    ((portReg idx).access = .readOnly ↔
      idx.toNat = 0x00 ∨ idx.toNat = 0x02 ∨ idx.toNat = 0x04 ∨ idx.toNat = 0x05 ∨
        (0x08 ≤ idx.toNat ∧ idx.toNat < 0x10))

/-- R62: a read of a readable register changes nothing in CORE, halted or not, and reads the same again. R26 to R30, R52,
R55, R210: the word each register outside the vector windows reads as, in every state; positions 0..31 of a 64-bit
register are bits 63..32 of its integer view. -/
def Obligations.ReadsHaveNoSideEffects : Prop :=
  (∀ (s : State) (idx : PortIndex) (rest : List HostInput), (portReg idx).access.readable = true →
    s.pending = .read idx :: .read idx :: rest →
    ∃ (w : Word) (t : State), step s = .next t ∧ t.core = s.core ∧ t.observed = s.observed ++ [w] ∧
      step t = .next { s with pending := rest, observed := s.observed ++ [w, w] }) ∧
  ∀ (s : State) (idx : PortIndex) (rest : List HostInput), s.pending = .read idx :: rest →
    let reads := fun w : Word => step s = .next { s with pending := rest, observed := s.observed ++ [w] }
    (idx = 0x00 → reads 0x49425437) ∧
    (idx = 0x01 → ∃ w : Word, reads w ∧ w.toNat = s.core.nr.toNat +
      256 * (match s.core.mode with | .none => 0 | .cbc => 1 | .cfb => 2) +
      1024 * (match s.core.dir with | .encrypt => 0 | .decrypt => 1)) ∧
    (idx = 0x02 → reads (match s.core.fault with
      | none => 0
      | some .lengthMismatch => 1
      | some .invalidBlockLength => 2
      | some .indexOutOfRange => 3
      | some .illegalOperation => 4
      | some .capacityExceeded => 5)) ∧
    (idx = 0x04 → reads s.core.faultInfo) ∧ (idx = 0x05 → reads s.core.blkcnt) ∧
    (idx = 0x08 → reads (s.core.key.extractLsb' 32 32)) ∧ (idx = 0x09 → reads (s.core.key.extractLsb' 0 32)) ∧
    (idx = 0x0A → reads (s.core.iv.extractLsb' 32 32)) ∧ (idx = 0x0B → reads (s.core.iv.extractLsb' 0 32)) ∧
    (idx = 0x0C → reads (s.core.feed.extractLsb' 32 32)) ∧ (idx = 0x0D → reads (s.core.feed.extractLsb' 0 32)) ∧
    (idx = 0x0E → reads s.core.left) ∧ (idx = 0x0F → reads s.core.right)

/-- R62: writing the same value twice to `CTRL`, `VLEN_i` or `VDATA_i[j]` leaves the state the first write left. -/
def Obligations.DataWritesAreIdempotent : Prop :=
  ∀ (s : State) (idx : PortIndex) (w : Word) (rest : List HostInput), (portReg idx).access = .readWrite →
    s.pending = .write idx w :: .write idx w :: rest →
    ∃ t u : State, step s = .next t ∧ step t = .next u ∧ u.core = t.core

/-- R57, R58, R243: of two writes through the port, data written into a register of length 0 is lost when the length
follows, and kept when the length came first; bits a shorter length dropped do not return with a longer one. The same two
laws of the functions the writes use, for every length. -/
def Obligations.LengthBeforeData : Prop :=
  (∀ (s : State) (i : Fin 8) (j : Fin 4) (w n : Word) (rest : List HostInput),
    s.core.fault = none → (s.core.vec i).len = 0 → n.toNat ≤ 128 →
    (s.pending = .write (BitVec.ofNat 7 (0x24 + 8 * i.val + j.val)) w ::
        .write (BitVec.ofNat 7 (0x20 + 8 * i.val)) n :: rest →
      ∃ t : State, step s = .next t ∧
        step t = .next { s with core := s.core.setVec i ⟨n.toNat, 0⟩, pending := rest }) ∧
    (s.pending = .write (BitVec.ofNat 7 (0x20 + 8 * i.val)) n ::
        .write (BitVec.ofNat 7 (0x24 + 8 * i.val + j.val)) w :: rest →
      ∃ (t : State) (x : Vec), step s = .next t ∧
        step t = .next { s with core := s.core.setVec i x, pending := rest } ∧ x.len = n.toNat ∧
        ∀ p, p < n.toNat → x.pos p =
          if 32 * j.val ≤ p ∧ p < 32 * j.val + 32 then w.getMsbD (p - 32 * j.val) else false)) ∧
  (∀ (s : State) (i : Fin 8) (m n : Word) (rest : List HostInput),
    s.core.fault = none → m.toNat ≤ n.toNat → n.toNat ≤ 128 →
    s.pending = .write (BitVec.ofNat 7 (0x20 + 8 * i.val)) m ::
        .write (BitVec.ofNat 7 (0x20 + 8 * i.val)) n :: rest →
      ∃ (t : State) (x : Vec), step s = .next t ∧
        step t = .next { s with core := s.core.setVec i x, pending := rest } ∧ x.len = n.toNat ∧
        ∀ p, p < n.toNat → x.pos p = if p < m.toNat then (s.core.vec i).pos p else false) ∧
  (∀ (v : Vec) (j n : Nat) (w : Word), v.len = 0 → ∀ i, ((v.setWord j w).resize n).pos i = false) ∧
  ∀ (v : Vec) (m n : Nat), m ≤ n → ∀ i, ((v.resize m).resize n).pos i = if i < m then v.pos i else false

/-- R54: bit `k` of byte `j`, counted from the most significant, is position `8j + k`, in both directions; the bytes of a
vector made from bytes are those bytes; zeros fill the low-order bits of the last byte (`pos` is 0 beyond the length). -/
def Obligations.BytesRoundTrip : Prop :=
  (∀ bs : List Byte, (Vec.fromBytes bs).len = 8 * bs.length ∧ Vec.toBytes (Vec.fromBytes bs) = bs ∧
    ∀ j k, j < bs.length → k < 8 → (Vec.fromBytes bs).pos (8 * j + k) = (bs.getD j 0).getMsbD k) ∧
  ∀ v : Vec, (Vec.toBytes v).length = (v.len + 7) / 8 ∧
    ∀ j k, j < (v.len + 7) / 8 → k < 8 → ((Vec.toBytes v).getD j 0).getMsbD k = v.pos (8 * j + k)

/-! ### Faults, reset and the whole machine -/

/-- R34, R241: CORE's state after reset, every register at the value of the table, and `fault_o` low. -/
def Obligations.ResetValues : Prop :=
  (∀ i : Fin 8, (State.reset.core.vec i).len = 0) ∧ State.reset.core.key = 0 ∧ State.reset.core.iv = 0 ∧
  State.reset.core.feed = 0 ∧ State.reset.core.left = 0 ∧ State.reset.core.right = 0 ∧
  State.reset.core.nr = 2 ∧ State.reset.core.mode = .none ∧ State.reset.core.dir = .encrypt ∧
  State.reset.core.fault = none ∧ State.reset.core.faultInfo = 0 ∧ State.reset.core.blkcnt = 0 ∧
  ctrlWord State.reset.core = 0x00000002 ∧ statusWord State.reset.core = 0 ∧
  faultLine State.reset.core = false

/-- R61, R216, R240: a write of any value to `SRST`, and a hard reset, put all of CORE's state to its reset values from
every state, halted or not; nothing survives, and the fault line is low. -/
def Obligations.ResetFromEveryState : Prop :=
  ∀ (s : State) (w : Word) (rest : List HostInput),
    (s.pending = .write 0x06 w :: rest ∨ s.pending = .hardReset :: rest) →
    step s = .next { s with core := State.reset.core, pending := rest } ∧ faultLine State.reset.core = false

/-- R68, R214, R217: while halted no input but `SRST` and hard reset changes anything in CORE, so the first fault is kept
and no command executes; a readable register reads as usual and any other index as 0. -/
def Obligations.HaltedCoreIsInert : Prop :=
  ∀ (s t : State), s.core.fault ≠ none → step s = .next t →
    (∀ w rest, s.pending ≠ .write 0x06 w :: rest) → (∀ rest, s.pending ≠ .hardReset :: rest) →
    t.core = s.core ∧
    ∀ idx rest, s.pending = .read idx :: rest →
      (∀ w, readReg s.core (portReg idx) = some w → t.observed = s.observed ++ [w]) ∧
      ((portReg idx).access.readable = false → t.observed = s.observed ++ [0])

/-- R212, R213: a step that enters the fault state from a running one writes `STATUS.FAULT` and `FAULTINFO` and nothing
else of CORE; a faulting read returns 0. -/
def Obligations.FaultsArePrecise : Prop :=
  ∀ (s t : State), s.core.fault = none → step s = .next t → t.core.fault ≠ none →
    t.core = { s.core with fault := t.core.fault, faultInfo := t.core.faultInfo } ∧
    ∀ idx rest, s.pending = .read idx :: rest → t.observed = s.observed ++ [0]

/-- R211: a legal command that is run faults exactly when its row of the table says so, with that kind and the command
word. -/
def Obligations.CommandFaultsAsTabulated : Prop :=
  ∀ (i : Instr) (s t : State), s.core.fault = none → i.WellFormed → exec i s = .next t →
    t.core.fault = operandFault i s.core ∧ (t.core.fault ≠ none → t.core.faultInfo = encode i)

/-- R210: no fault depends on the bit values of a vector, a key or a block: two machines that agree on vector lengths and
on the fault registers, given the same input, agree on them after the step. -/
def Obligations.FaultsIgnoreBitValues : Prop :=
  ∀ (s t s' t' : State), s.pending = t.pending → s.core.sameLengths t.core →
    step s = .next s' → step t = .next t' → s'.core.sameLengths t'.core

/-- R33: the invariants hold at reset. -/
def Obligations.ResetMeetsInvariants : Prop :=
  State.reset.core.Inv ∧ State.reset.core.faultRecordSound

/-- R33: every step keeps the invariants: every vector within 128 bits, at least one round, and `FAULTINFO` zero while no
fault is recorded. -/
def Obligations.StepKeepsInvariants : Prop :=
  ∀ (s t : State), s.core.Inv → step s = .next t → t.core.Inv

/-- R28, R211, R212: every step keeps `FAULTINFO` a true record of the fault: beside the code of an operand fault it holds
the word of a command that can raise it. -/
def Obligations.StepKeepsFaultRecord : Prop :=
  ∀ (s t : State), s.core.faultRecordSound → step s = .next t → t.core.faultRecordSound

/-- R22, R23, R24, R26, R29: of everything a host can do, only these events write these registers, reset apart: `KEY` by
`LDKEY`, `IV` by `LDIV`, `FEED` and `BLKCNT` by `MSTART` or `MBLK`, `CTRL` by a write to index 1. -/
def Obligations.OnlyNamedEventsWriteRegisters : Prop :=
  ∀ (s t : State) (input : HostInput) (rest : List HostInput),
    s.pending = input :: rest → step s = .next t → input ≠ .hardReset → (∀ w, input ≠ .write 0x06 w) →
    (t.core.key ≠ s.core.key → ∃ va, input = .write 0x03 (encode (.ldkey va))) ∧
    (t.core.iv ≠ s.core.iv → ∃ va, input = .write 0x03 (encode (.ldiv va))) ∧
    (t.core.feed ≠ s.core.feed ∨ t.core.blkcnt ≠ s.core.blkcnt →
      input = .write 0x03 (encode .mstart) ∨ ∃ vd va, input = .write 0x03 (encode (.mblk vd va))) ∧
    ((t.core.nr, t.core.mode, t.core.dir) ≠ (s.core.nr, s.core.mode, s.core.dir) → ∃ w, input = .write 0x01 w)

/-! ### Frames -/

/-- R117, R134, R135, R162: the frame of `VZERO VSHR VSHL VXOR VCAT VSLICE SUBKEY FRND BJOIN`: every register but `V[vd]`
is as before, and `STATUS.FAULT` and `FAULTINFO` too unless the whole effect was the fault entry. -/
def Obligations.VectorCommandFrame : Prop :=
  ∀ (i : Instr) (vd : RegNum) (s t : State), isVectorOnly i = true → destOf i = some vd → exec i s = .next t →
    s.sameHost t ∧ (∀ j, j ≠ regIdx vd → t.core.vec j = s.core.vec j) ∧
    t.core.key = s.core.key ∧ t.core.iv = s.core.iv ∧ t.core.feed = s.core.feed ∧
    t.core.left = s.core.left ∧ t.core.right = s.core.right ∧ t.core.blkcnt = s.core.blkcnt ∧
    s.core.sameCtrl t.core ∧ faultEntryOnly i s.core t.core

/-- R50, R117: the same frame in the register space: every readable register outside `V[vd]`'s window, `STATUS` and
`FAULTINFO` reads as before. -/
def Obligations.VectorCommandRegisterSpaceFrame : Prop :=
  ∀ (i : Instr) (vd : RegNum) (s t : State) (idx : PortIndex),
    isVectorOnly i = true → destOf i = some vd → exec i s = .next t →
    portReg idx ≠ .status → portReg idx ≠ .faultInfo → portReg idx ≠ .vlen (regIdx vd) →
    (∀ j, portReg idx ≠ .vdata (regIdx vd) j) →
    readReg t.core (portReg idx) = readReg s.core (portReg idx)

/-- R133, R159 to R161, R190, R191: the frame of `LDKEY LDIV BSPLIT RNDE RNDD MSTART`: no vector register and no field of
`CTRL` changes; `KEY` only by `LDKEY`, `IV` only by `LDIV`, `L` and `R` only by `BSPLIT`, `RNDE`, `RNDD`, `FEED` and
`BLKCNT` only by `MSTART`. -/
def Obligations.CipherRegisterCommandFrame : Prop :=
  ∀ (i : Instr) (s t : State), destOf i = none → exec i s = .next t →
    s.sameHost t ∧ (∀ j, t.core.vec j = s.core.vec j) ∧ s.core.sameCtrl t.core ∧ faultEntryOnly i s.core t.core ∧
    ((∀ va, i ≠ .ldkey va) → t.core.key = s.core.key) ∧
    ((∀ va, i ≠ .ldiv va) → t.core.iv = s.core.iv) ∧
    ((∀ va, i ≠ .bsplit va) → (∀ r, i ≠ .rnde r) → (∀ r, i ≠ .rndd r) →
      t.core.left = s.core.left ∧ t.core.right = s.core.right) ∧
    (i ≠ .mstart → t.core.feed = s.core.feed ∧ t.core.blkcnt = s.core.blkcnt)

/-- R163, R164, R192: the frame of `ENC DEC MBLK`: only `V[vd]`, `L` and `R` change, and by `MBLK` also `BLKCNT` and,
outside mode none, `FEED`. -/
def Obligations.BlockCommandFrame : Prop :=
  ∀ (i : Instr) (vd va : RegNum) (s t : State),
    i = .enc vd va ∨ i = .dec vd va ∨ i = .mblk vd va → exec i s = .next t →
    s.sameHost t ∧ (∀ j, j ≠ regIdx vd → t.core.vec j = s.core.vec j) ∧
    t.core.key = s.core.key ∧ t.core.iv = s.core.iv ∧ s.core.sameCtrl t.core ∧ faultEntryOnly i s.core t.core ∧
    (i ≠ .mblk vd va → t.core.feed = s.core.feed ∧ t.core.blkcnt = s.core.blkcnt) ∧
    (s.core.mode = .none → t.core.feed = s.core.feed)
end

