-- ==== Sys2Proof/Laws/BitVector.lean ====
section
/-! SUPPORT. The BitVector functions position by position, as R102 to R107 and R55 to R58 state them, and what each checked function answers. -/

namespace Sys2Proof

open Sys2Proof.Machine

theorem Vec.pos_of_len_le (v : Vec) {i : Nat} (h : v.len ≤ i) : v.pos i = false := by
  simp [Vec.pos, BitVec.getMsbD_of_ge _ _ h]

/-- R100: two BitVectors are equal exactly when they have the same length and the same bit at every position. -/
theorem Vec.ext_pos {a b : Vec} (hl : a.len = b.len) (hp : ∀ i, i < a.len → a.pos i = b.pos i) : a = b := by
  obtain ⟨n, x⟩ := a
  obtain ⟨m, y⟩ := b
  obtain rfl : n = m := hl
  congr 1
  exact BitVec.eq_of_getMsbD_eq hp

@[simp] theorem Vec.ofLen?_self {n : Nat} (x : BitVec n) : Vec.ofLen? n ⟨n, x⟩ = some x := by
  simp [Vec.ofLen?]

theorem Vec.ofLen?_eq_some {n : Nat} {v : Vec} {x : BitVec n} : v.ofLen? n = some x ↔ v = ⟨n, x⟩ := by
  obtain ⟨m, y⟩ := v
  constructor
  · intro h
    unfold Vec.ofLen? at h
    split at h
    · rename_i hm
      obtain rfl : m = n := hm
      simpa using h
    · cases h
  · intro h
    rw [h, Vec.ofLen?_self]

theorem Vec.ofLen?_eq_none {n : Nat} {v : Vec} : v.ofLen? n = none ↔ v.len ≠ n := by
  unfold Vec.ofLen?
  split <;> simp_all

section Positions

variable (v a b : Vec) (n i j k : Nat)

@[simp] theorem Vec.zero_len : (Vec.zero n).len = n := rfl
@[simp] theorem Vec.zero_pos : (Vec.zero n).pos i = false := by simp [Vec.zero, Vec.pos]

@[simp] theorem Vec.shiftRight_len : (v.shiftRight n).len = v.len := rfl

/-- R102. -/
theorem Vec.shiftRight_pos (h : i < v.len) : (v.shiftRight n).pos i = if n ≤ i then v.pos (i - n) else false := by
  simp only [Vec.pos, Vec.shiftRight, Machine.shiftRight, BitVec.getMsbD_ushiftRight]
  grind

@[simp] theorem Vec.shiftLeft_len : (v.shiftLeft n).len = v.len := rfl

/-- R103. -/
theorem Vec.shiftLeft_pos : (v.shiftLeft n).pos i = if i + n < v.len then v.pos (i + n) else false := by
  simp only [Vec.pos, Vec.shiftLeft, Machine.shiftLeft, BitVec.getMsbD_shiftLeft]
  split
  · rfl
  · rename_i h
    exact BitVec.getMsbD_of_ge _ _ (by omega)

@[simp] theorem Vec.concat_len : (a.concat b).len = a.len + b.len := rfl

/-- R105. -/
theorem Vec.concat_pos : (a.concat b).pos i = if i < a.len then a.pos i else b.pos (i - a.len) := by
  simp only [Vec.pos, Vec.concat, BitVec.getMsbD_append]
  grind

@[simp] theorem Vec.resize_len : (v.resize n).len = n := rfl

/-- R57. -/
theorem Vec.resize_pos : (v.resize n).pos i = if i < n then v.pos i else false := by
  simp only [Vec.pos, Vec.resize, Machine.resize, BitVec.getMsbD_eq_getLsbD]
  grind

/-- R106: position `j` of a slice. -/
theorem sliceBits_pos {len start stop : Nat} (x : BitVec len) (h : start ≤ stop) (h' : stop ≤ len) :
    (sliceBits x start stop).getMsbD j = if j < stop - start then x.getMsbD (start + j) else false := by
  simp only [sliceBits, BitVec.getMsbD_eq_getLsbD]
  grind

/-- R107: the first `n` positions. -/
theorem truncate_pos {len : Nat} (x : BitVec len) (h : n ≤ len) :
    (truncate n x).getMsbD i = if i < n then x.getMsbD i else false := by
  simp only [truncate, BitVec.getMsbD_eq_getLsbD]
  grind

/-- R55, R56: position `32j + k` is bit `31 - k` of word `j`, and 0 at and beyond the length. -/
theorem Vec.word_pos (h : k < 32) : (v.word j).getMsbD k = v.pos (32 * j + k) := by
  simp only [Vec.pos, Vec.word, BitVec.getMsbD_eq_getLsbD]
  grind

/-- A word laid at positions `32j .. 32j+31`. -/
theorem wordAt_pos {len : Nat} (w : Word) :
    (wordAt len j w).getMsbD i = if i < len ∧ 32 * j ≤ i then w.getMsbD (i - 32 * j) else false := by
  by_cases hi : i < len
  · have e : BitVec.getMsbD (wordAt len j w) i =
        BitVec.getLsbD (0#(32 * j) ++ w ++ 0#len) (32 * j + 32 + (len - 1 - i)) := by
      simp [wordAt, BitVec.getMsbD_eq_getLsbD, hi, show len - 1 - i < len by omega]
    rw [e, BitVec.getLsbD_append, BitVec.getLsbD_append]
    by_cases hj : 32 * j ≤ i
    · by_cases hk : i < 32 * j + 32
      · have h1 : ¬ 32 * j + 32 + (len - 1 - i) < len := by omega
        have h2 : 32 * j + 32 + (len - 1 - i) - len < 32 := by omega
        have h3 : i - 32 * j < 32 := by omega
        have h4 : 32 * j + 32 + (len - 1 - i) - len = 32 - 1 - (i - 32 * j) := by omega
        rw [if_neg h1, if_pos h2, if_pos ⟨hi, hj⟩, BitVec.getMsbD_eq_getLsbD, h4]
        simp [h3]
      · have h1 : 32 * j + 32 + (len - 1 - i) < len := by omega
        rw [if_pos h1, if_pos ⟨hi, hj⟩, BitVec.getMsbD_of_ge w _ (by omega)]
        simp
    · have h1 : ¬ 32 * j + 32 + (len - 1 - i) < len := by omega
      have h2 : ¬ 32 * j + 32 + (len - 1 - i) - len < 32 := by omega
      rw [if_neg h1, if_neg h2, if_neg (by omega)]
      simp
  · rw [BitVec.getMsbD_of_ge _ _ (by omega), if_neg (by omega)]

@[simp] theorem Vec.setWord_len (w : Word) : (v.setWord j w).len = v.len := rfl

/-- R58. -/
theorem Vec.setWord_pos (w : Word) : (v.setWord j w).pos i =
    if i < v.len ∧ 32 * j ≤ i ∧ i < 32 * j + 32 then w.getMsbD (i - 32 * j) else v.pos i := by
  simp only [Vec.pos, Vec.setWord, BitVec.getMsbD_or, BitVec.getMsbD_and, BitVec.getMsbD_not, wordAt_pos,
    BitVec.getMsbD_allOnes]
  grind

end Positions

/-- R104: what `Xor` answers. -/
theorem Vec.xor_cases (a b : Vec) :
    (a.len = b.len ∧ ∃ x, a.xor b = .ok x ∧ x.len = a.len ∧ ∀ i, x.pos i = (a.pos i ^^ b.pos i)) ∨
      (a.len ≠ b.len ∧ a.xor b = .error .lengthMismatch) := by
  unfold Vec.xor
  split
  · rename_i y hy
    obtain rfl := Vec.ofLen?_eq_some.mp hy
    exact .inl ⟨rfl, _, rfl, rfl, fun i => by simp [Vec.pos]⟩
  · rename_i hn
    exact .inr ⟨fun e => Vec.ofLen?_eq_none.mp hn e.symm, rfl⟩

/-- R104 on two vectors of one length. -/
@[simp] theorem Vec.xor_mk {n : Nat} (x y : BitVec n) : Vec.xor ⟨n, x⟩ ⟨n, y⟩ = .ok ⟨n, x ^^^ y⟩ := by
  simp [Vec.xor]

/-- R106: what `Slice` answers. -/
theorem Vec.slice_cases (v : Vec) (start stop : Nat) :
    (start ≤ stop ∧ stop ≤ v.len ∧ ∃ x, v.slice start stop = .ok x ∧ x.len = stop - start ∧
        ∀ j, j < stop - start → x.pos j = v.pos (start + j)) ∨
      ((start > stop ∨ stop > v.len) ∧ v.slice start stop = .error .indexOutOfRange) := by
  unfold Vec.slice
  split
  · rename_i h
    exact .inr ⟨h, rfl⟩
  · rename_i h
    have h1 : start ≤ stop := by omega
    have h2 : stop ≤ v.len := by omega
    exact .inl ⟨h1, h2, _, rfl, rfl, fun j hj => by simp [Vec.pos, sliceBits_pos _ _ h1 h2, hj]⟩

end Sys2Proof
end

