-- ==== Sys2Proof/Laws/Cipher.lean ====
section
/-! SUPPORT. The small lemmas of F, the subkey scheduler, the halves and the rounds. -/

namespace Sys2Proof.Machine

open Sys2Proof

/-- R150: "split followed by concat is the identity". -/
@[simp] theorem join_halves (b : Block) : join (halves b) = b := by
  apply BitVec.eq_of_getLsbD_eq
  intro i _
  simp only [join, halves, leftHalf, rightHalf, sliceBits, BitVec.getLsbD_append, BitVec.getLsbD_extractLsb']
  grind

/-- R150: the halves of a joined pair are the pair. -/
@[simp] theorem halves_join (p : Half × Half) : halves (join p) = p := by
  obtain ⟨l, r⟩ := p
  refine Prod.ext ?_ ?_
  · apply BitVec.eq_of_getLsbD_eq
    intro i _
    simp only [join, halves, leftHalf, sliceBits, BitVec.getLsbD_append, BitVec.getLsbD_extractLsb']
    grind
  · apply BitVec.eq_of_getLsbD_eq
    intro i _
    simp only [join, halves, rightHalf, sliceBits, BitVec.getLsbD_append, BitVec.getLsbD_extractLsb']
    grind

theorem join_injective {p q : Half × Half} (h : join p = join q) : p = q := by
  rw [← halves_join p, h, halves_join]

/-- R130: F position by position. -/
theorem roundF_pos {n : Nat} (h k : BitVec n) (i : Nat) (hi : i < n) :
    (roundF h k).getMsbD i = ((if i + 3 < n then h.getMsbD (i + 3) else false) ^^ (if 2 ≤ i then k.getMsbD (i - 2) else false)) := by
  have e1 := Vec.shiftLeft_pos ⟨n, h⟩ 3 i
  have e2 := Vec.shiftRight_pos ⟨n, k⟩ 2 i hi
  simp only [Vec.pos, Vec.shiftLeft, Vec.shiftRight] at e1 e2
  simp only [roundF, fShl, fShr, BitVec.getMsbD_xor, e1, e2]

/-- R130: what F answers on BitVectors. -/
theorem vecRoundF_cases (h k : Vec) :
    (h.len = k.len ∧ ∃ x, vecRoundF h k = .ok x ∧ x.len = h.len) ∨
      (h.len ≠ k.len ∧ vecRoundF h k = .error .lengthMismatch) := by
  unfold vecRoundF
  split
  · rename_i y hy
    obtain rfl := Vec.ofLen?_eq_some.mp hy
    exact .inl ⟨rfl, _, rfl, rfl⟩
  · rename_i hn
    exact .inr ⟨fun e => Vec.ofLen?_eq_none.mp hn e.symm, rfl⟩

@[simp] theorem vecRoundF_mk {n : Nat} (x y : BitVec n) : vecRoundF ⟨n, x⟩ ⟨n, y⟩ = .ok ⟨n, roundF x y⟩ := by
  simp [vecRoundF]

/-- R131: a round subkey position by position. -/
theorem roundSubkey_pos (key : Block) (r i : Nat) (hi : i < 32) :
    (roundSubkey key r).getMsbD i = if 8 * r ≤ i then key.getMsbD (i - 8 * r) else false := by
  have e := Vec.shiftRight_pos ⟨64, key⟩ (8 * r) i (by simp; omega)
  simp only [Vec.pos, Vec.shiftRight] at e
  rw [roundSubkey, truncate_pos _ _ _ (by omega), if_pos hi, stride, e]

@[simp] theorem encRounds_zero (key : Block) (p : Half × Half) : encRounds key 0 p = p := rfl
theorem encRounds_succ (key : Block) (n : Nat) (p : Half × Half) :
    encRounds key (n + 1) p = encRound key n (encRounds key n p) := rfl
@[simp] theorem decRounds_zero (key : Block) (p : Half × Half) : decRounds key 0 p = p := rfl
theorem decRounds_succ (key : Block) (n : Nat) (p : Half × Half) :
    decRounds key (n + 1) p = decRounds key n (decRound key n p) := rfl


end Sys2Proof.Machine
end

