-- ==== Sys2Proof/Laws/Decode.lean ====
section
/-! SUPPORT. The fields of each command format, the bits a mask keeps, and the opcode map read both ways. -/

namespace Sys2Proof

section Layout

variable (a a' : BitVec 8) (b b' c c' d d' : BitVec 4) (e e' : BitVec 12) (x x' y y' : BitVec 8)

/-- Formats R, I and N laid out over the five fields of R81. -/
def layout (a : BitVec 8) (b c d : BitVec 4) (e : BitVec 12) : Word := a ++ b ++ c ++ d ++ e

theorem opField_layout : opField (layout a b c d e) = a := by
  apply BitVec.eq_of_getLsbD_eq
  intro i _
  simp only [opField, layout, BitVec.getLsbD_append, BitVec.getLsbD_extractLsb']
  grind

theorem vdField_layout : vdField (layout a b c d e) = b := by
  apply BitVec.eq_of_getLsbD_eq
  intro i _
  simp only [vdField, layout, BitVec.getLsbD_append, BitVec.getLsbD_extractLsb']
  grind

theorem vaField_layout : vaField (layout a b c d e) = c := by
  apply BitVec.eq_of_getLsbD_eq
  intro i _
  simp only [vaField, layout, BitVec.getLsbD_append, BitVec.getLsbD_extractLsb']
  grind

theorem vbField_layout : vbField (layout a b c d e) = d := by
  apply BitVec.eq_of_getLsbD_eq
  intro i _
  simp only [vbField, layout, BitVec.getLsbD_append, BitVec.getLsbD_extractLsb']
  grind

theorem immField_layout : immField (layout a b c d e) = e := by
  apply BitVec.eq_of_getLsbD_eq
  intro i _
  simp only [immField, layout, BitVec.getLsbD_append, BitVec.getLsbD_extractLsb']
  grind

/-- Every word is its five fields laid out. -/
theorem layout_fields (w : Word) : layout (opField w) (vdField w) (vaField w) (vbField w) (immField w) = w := by
  apply BitVec.eq_of_getLsbD_eq
  intro i _
  simp only [layout, opField, vdField, vaField, vbField, immField, BitVec.getLsbD_append, BitVec.getLsbD_extractLsb']
  grind

/-- The two slice bounds together fill the low 16 bits. -/
theorem bounds_fields (w : Word) : vbField w ++ immField w = (startField w ++ endField w : BitVec 16) := by
  apply BitVec.eq_of_getLsbD_eq
  intro i _
  simp only [startField, endField, vbField, immField, BitVec.getLsbD_append, BitVec.getLsbD_extractLsb']
  grind

/-- A mask acts field by field. -/
theorem layout_and : layout a b c d e &&& layout a' b' c' d' e' =
    layout (a &&& a') (b &&& b') (c &&& c') (d &&& d') (e &&& e') := by
  apply BitVec.eq_of_getLsbD_eq
  intro i _
  simp only [layout, BitVec.getLsbD_and, BitVec.getLsbD_append]
  grind

theorem layout_inj {a a' : BitVec 8} {b b' c c' d d' : BitVec 4} {e e' : BitVec 12}
    (h : layout a b c d e = layout a' b' c' d' e') :
    a = a' ∧ b = b' ∧ c = c' ∧ d = d' ∧ e = e' := by
  refine ⟨?_, ?_, ?_, ?_, ?_⟩
  · simpa only [opField_layout] using congrArg opField h
  · simpa only [vdField_layout] using congrArg vdField h
  · simpa only [vaField_layout] using congrArg vaField h
  · simpa only [vbField_layout] using congrArg vbField h
  · simpa only [immField_layout] using congrArg immField h

/-- Format S laid out over the four fields of R81. -/
def layoutS (a : BitVec 8) (b c : BitVec 4) (x y : BitVec 8) : Word := a ++ b ++ c ++ x ++ y

theorem opField_layoutS : opField (layoutS a b c x y) = a := by
  apply BitVec.eq_of_getLsbD_eq
  intro i _
  simp only [opField, layoutS, BitVec.getLsbD_append, BitVec.getLsbD_extractLsb']
  grind

theorem vdField_layoutS : vdField (layoutS a b c x y) = b := by
  apply BitVec.eq_of_getLsbD_eq
  intro i _
  simp only [vdField, layoutS, BitVec.getLsbD_append, BitVec.getLsbD_extractLsb']
  grind

theorem vaField_layoutS : vaField (layoutS a b c x y) = c := by
  apply BitVec.eq_of_getLsbD_eq
  intro i _
  simp only [vaField, layoutS, BitVec.getLsbD_append, BitVec.getLsbD_extractLsb']
  grind

theorem startField_layoutS : startField (layoutS a b c x y) = x := by
  apply BitVec.eq_of_getLsbD_eq
  intro i _
  simp only [startField, layoutS, BitVec.getLsbD_append, BitVec.getLsbD_extractLsb']
  grind

theorem endField_layoutS : endField (layoutS a b c x y) = y := by
  apply BitVec.eq_of_getLsbD_eq
  intro i _
  simp only [endField, layoutS, BitVec.getLsbD_append, BitVec.getLsbD_extractLsb']
  grind

theorem layoutS_fields (w : Word) : layoutS (opField w) (vdField w) (vaField w) (startField w) (endField w) = w := by
  apply BitVec.eq_of_getLsbD_eq
  intro i _
  simp only [layoutS, opField, vdField, vaField, startField, endField, BitVec.getLsbD_append, BitVec.getLsbD_extractLsb']
  grind

theorem layoutS_and : layoutS a b c x y &&& layoutS a' b' c' x' y' =
    layoutS (a &&& a') (b &&& b') (c &&& c') (x &&& x') (y &&& y') := by
  apply BitVec.eq_of_getLsbD_eq
  intro i _
  simp only [layoutS, BitVec.getLsbD_and, BitVec.getLsbD_append]
  grind

theorem layoutS_inj {a a' : BitVec 8} {b b' c c' : BitVec 4} {x x' y y' : BitVec 8}
    (h : layoutS a b c x y = layoutS a' b' c' x' y') :
    a = a' ∧ b = b' ∧ c = c' ∧ x = x' ∧ y = y' := by
  refine ⟨?_, ?_, ?_, ?_, ?_⟩
  · simpa only [opField_layoutS] using congrArg opField h
  · simpa only [vdField_layoutS] using congrArg vdField h
  · simpa only [vaField_layoutS] using congrArg vaField h
  · simpa only [startField_layoutS] using congrArg startField h
  · simpa only [endField_layoutS] using congrArg endField h

end Layout

section Formats

variable (op : Opcode) (vd va vb : RegNum) (imm : Imm) (start stop : Bound)

theorem formatR_eq_layout : formatR op vd va vb = layout op.byte vd va vb 0 := rfl
theorem formatI_eq_layout : formatI op vd va imm = layout op.byte vd va 0 imm := rfl
theorem formatS_eq_layoutS : formatS op vd va start stop = layoutS op.byte vd va start stop := rfl

theorem pattern_eq_layout : op.pattern = layout op.byte 0 0 0 0 := by cases op <;> rfl
theorem formatN_eq_layout : formatN op = layout op.byte 0 0 0 0 := by cases op <;> rfl
theorem pattern_eq_layoutS : op.pattern = layoutS op.byte 0 0 0 0 := by cases op <;> rfl

end Formats

/-- R85: a register field is legal exactly when its bit 3 is 0. -/
theorem RegNum.valid_iff (r : RegNum) : RegNum.valid r = true ↔ r &&& 8#4 = 0#4 := by
  revert r
  decide

/-- R83: the `OP` values are distinct, so each names its own row. -/
theorem opcodeOf_byte (op : Opcode) : opcodeOf op.byte = some op := by cases op <;> rfl

/-- A row found for a byte has that byte as its `OP`. -/
theorem byte_of_opcodeOf {b : BitVec 8} {op : Opcode} (h : opcodeOf b = some op) : op.byte = b := by
  simpa using List.find?_some h

/-- R88: a legal word is the operands of its row, and its row's mask keeps the row's pattern. -/
theorem decode_ok {w : Word} {i : Instr} (h : decode w = .ok i) :
    ∃ op : Opcode, op.byte = opField w ∧ w &&& op.mask = op.pattern ∧ i = op.operands w := by
  unfold decode at h
  split at h
  · cases h
  · rename_i op hop
    split at h
    · rename_i hm
      exact ⟨op, byte_of_opcodeOf hop, hm, by cases h; rfl⟩
    · split at h <;> cases h

/-- R88: a word whose row's mask keeps the row's pattern is legal. -/
theorem decode_of_match {w : Word} {op : Opcode} (hb : opField w = op.byte) (hm : w &&& op.mask = op.pattern) :
    decode w = .ok (op.operands w) := by
  simp [decode, hb, opcodeOf_byte, hm]

/-- R86: no word with top byte `0xFF` is a command. -/
theorem decode_error_of_ff {w : Word} (h : opField w = 0xFF) : decode w = .error .unassignedOpcode := by
  simp only [decode, h]
  rfl

/-- The host's bits of a 32-bit row are the word itself. -/
@[simp] theorem tableWord_toNat (w : Word) : tableWord 32 w.toNat = w := by
  apply BitVec.eq_of_toNat_eq
  rw [tableWord, BitVec.toNat_ofNat, Nat.mod_mod, Nat.mod_eq_of_lt w.isLt]

end Sys2Proof
end

