-- ==== Sys2Proof/Laws/State.lean ====
section
/-! SUPPORT. One lemma per field of CORE's state per update, and the same for the machine around it. -/

namespace Sys2Proof.Machine

variable (c : CoreState) (s : State)

section setVec

theorem CoreState.setVec_vregs (i : Fin 8) (x : Vec) : (c.setVec i x).vregs = c.vregs.set i x := rfl
@[simp] theorem CoreState.setVec_key (i : Fin 8) (x : Vec) : (c.setVec i x).key = c.key := rfl
@[simp] theorem CoreState.setVec_iv (i : Fin 8) (x : Vec) : (c.setVec i x).iv = c.iv := rfl
@[simp] theorem CoreState.setVec_feed (i : Fin 8) (x : Vec) : (c.setVec i x).feed = c.feed := rfl
@[simp] theorem CoreState.setVec_left (i : Fin 8) (x : Vec) : (c.setVec i x).left = c.left := rfl
@[simp] theorem CoreState.setVec_right (i : Fin 8) (x : Vec) : (c.setVec i x).right = c.right := rfl
@[simp] theorem CoreState.setVec_nr (i : Fin 8) (x : Vec) : (c.setVec i x).nr = c.nr := rfl
@[simp] theorem CoreState.setVec_mode (i : Fin 8) (x : Vec) : (c.setVec i x).mode = c.mode := rfl
@[simp] theorem CoreState.setVec_dir (i : Fin 8) (x : Vec) : (c.setVec i x).dir = c.dir := rfl
@[simp] theorem CoreState.setVec_fault (i : Fin 8) (x : Vec) : (c.setVec i x).fault = c.fault := rfl
@[simp] theorem CoreState.setVec_faultInfo (i : Fin 8) (x : Vec) : (c.setVec i x).faultInfo = c.faultInfo := rfl
@[simp] theorem CoreState.setVec_blkcnt (i : Fin 8) (x : Vec) : (c.setVec i x).blkcnt = c.blkcnt := rfl
@[simp] theorem CoreState.setVec_vec_same (i : Fin 8) (x : Vec) : (c.setVec i x).vec i = x := by
  simp [CoreState.setVec, CoreState.vec]
theorem CoreState.setVec_vec_ne (i : Fin 8) (x : Vec) (j : Fin 8) (h : j ≠ i) : (c.setVec i x).vec j = c.vec j := by
  have : i.val ≠ j.val := fun e => h (Fin.ext e.symm)
  simp [CoreState.setVec, CoreState.vec, this]
@[simp] theorem CoreState.setVec_halted (i : Fin 8) (x : Vec) : (c.setVec i x).halted = c.halted := rfl

end setVec

section setKey

@[simp] theorem CoreState.setKey_vregs (k : Block) : (c.setKey k).vregs = c.vregs := rfl
@[simp] theorem CoreState.setKey_key (k : Block) : (c.setKey k).key = k := rfl
@[simp] theorem CoreState.setKey_iv (k : Block) : (c.setKey k).iv = c.iv := rfl
@[simp] theorem CoreState.setKey_feed (k : Block) : (c.setKey k).feed = c.feed := rfl
@[simp] theorem CoreState.setKey_left (k : Block) : (c.setKey k).left = c.left := rfl
@[simp] theorem CoreState.setKey_right (k : Block) : (c.setKey k).right = c.right := rfl
@[simp] theorem CoreState.setKey_nr (k : Block) : (c.setKey k).nr = c.nr := rfl
@[simp] theorem CoreState.setKey_mode (k : Block) : (c.setKey k).mode = c.mode := rfl
@[simp] theorem CoreState.setKey_dir (k : Block) : (c.setKey k).dir = c.dir := rfl
@[simp] theorem CoreState.setKey_fault (k : Block) : (c.setKey k).fault = c.fault := rfl
@[simp] theorem CoreState.setKey_faultInfo (k : Block) : (c.setKey k).faultInfo = c.faultInfo := rfl
@[simp] theorem CoreState.setKey_blkcnt (k : Block) : (c.setKey k).blkcnt = c.blkcnt := rfl
@[simp] theorem CoreState.setKey_vec (k : Block) (j : Fin 8) : (c.setKey k).vec j = c.vec j := rfl
@[simp] theorem CoreState.setKey_halted (k : Block) : (c.setKey k).halted = c.halted := rfl

end setKey

section setIv

@[simp] theorem CoreState.setIv_vregs (x : Block) : (c.setIv x).vregs = c.vregs := rfl
@[simp] theorem CoreState.setIv_key (x : Block) : (c.setIv x).key = c.key := rfl
@[simp] theorem CoreState.setIv_iv (x : Block) : (c.setIv x).iv = x := rfl
@[simp] theorem CoreState.setIv_feed (x : Block) : (c.setIv x).feed = c.feed := rfl
@[simp] theorem CoreState.setIv_left (x : Block) : (c.setIv x).left = c.left := rfl
@[simp] theorem CoreState.setIv_right (x : Block) : (c.setIv x).right = c.right := rfl
@[simp] theorem CoreState.setIv_nr (x : Block) : (c.setIv x).nr = c.nr := rfl
@[simp] theorem CoreState.setIv_mode (x : Block) : (c.setIv x).mode = c.mode := rfl
@[simp] theorem CoreState.setIv_dir (x : Block) : (c.setIv x).dir = c.dir := rfl
@[simp] theorem CoreState.setIv_fault (x : Block) : (c.setIv x).fault = c.fault := rfl
@[simp] theorem CoreState.setIv_faultInfo (x : Block) : (c.setIv x).faultInfo = c.faultInfo := rfl
@[simp] theorem CoreState.setIv_blkcnt (x : Block) : (c.setIv x).blkcnt = c.blkcnt := rfl
@[simp] theorem CoreState.setIv_vec (x : Block) (j : Fin 8) : (c.setIv x).vec j = c.vec j := rfl
@[simp] theorem CoreState.setIv_halted (x : Block) : (c.setIv x).halted = c.halted := rfl

end setIv

section setFeed

@[simp] theorem CoreState.setFeed_vregs (x : Block) : (c.setFeed x).vregs = c.vregs := rfl
@[simp] theorem CoreState.setFeed_key (x : Block) : (c.setFeed x).key = c.key := rfl
@[simp] theorem CoreState.setFeed_iv (x : Block) : (c.setFeed x).iv = c.iv := rfl
@[simp] theorem CoreState.setFeed_feed (x : Block) : (c.setFeed x).feed = x := rfl
@[simp] theorem CoreState.setFeed_left (x : Block) : (c.setFeed x).left = c.left := rfl
@[simp] theorem CoreState.setFeed_right (x : Block) : (c.setFeed x).right = c.right := rfl
@[simp] theorem CoreState.setFeed_nr (x : Block) : (c.setFeed x).nr = c.nr := rfl
@[simp] theorem CoreState.setFeed_mode (x : Block) : (c.setFeed x).mode = c.mode := rfl
@[simp] theorem CoreState.setFeed_dir (x : Block) : (c.setFeed x).dir = c.dir := rfl
@[simp] theorem CoreState.setFeed_fault (x : Block) : (c.setFeed x).fault = c.fault := rfl
@[simp] theorem CoreState.setFeed_faultInfo (x : Block) : (c.setFeed x).faultInfo = c.faultInfo := rfl
@[simp] theorem CoreState.setFeed_blkcnt (x : Block) : (c.setFeed x).blkcnt = c.blkcnt := rfl
@[simp] theorem CoreState.setFeed_vec (x : Block) (j : Fin 8) : (c.setFeed x).vec j = c.vec j := rfl
@[simp] theorem CoreState.setFeed_halted (x : Block) : (c.setFeed x).halted = c.halted := rfl

end setFeed

section setHalves

@[simp] theorem CoreState.setHalves_vregs (p : Half × Half) : (c.setHalves p).vregs = c.vregs := rfl
@[simp] theorem CoreState.setHalves_key (p : Half × Half) : (c.setHalves p).key = c.key := rfl
@[simp] theorem CoreState.setHalves_iv (p : Half × Half) : (c.setHalves p).iv = c.iv := rfl
@[simp] theorem CoreState.setHalves_feed (p : Half × Half) : (c.setHalves p).feed = c.feed := rfl
@[simp] theorem CoreState.setHalves_left (p : Half × Half) : (c.setHalves p).left = p.1 := rfl
@[simp] theorem CoreState.setHalves_right (p : Half × Half) : (c.setHalves p).right = p.2 := rfl
@[simp] theorem CoreState.setHalves_nr (p : Half × Half) : (c.setHalves p).nr = c.nr := rfl
@[simp] theorem CoreState.setHalves_mode (p : Half × Half) : (c.setHalves p).mode = c.mode := rfl
@[simp] theorem CoreState.setHalves_dir (p : Half × Half) : (c.setHalves p).dir = c.dir := rfl
@[simp] theorem CoreState.setHalves_fault (p : Half × Half) : (c.setHalves p).fault = c.fault := rfl
@[simp] theorem CoreState.setHalves_faultInfo (p : Half × Half) : (c.setHalves p).faultInfo = c.faultInfo := rfl
@[simp] theorem CoreState.setHalves_blkcnt (p : Half × Half) : (c.setHalves p).blkcnt = c.blkcnt := rfl
@[simp] theorem CoreState.setHalves_vec (p : Half × Half) (j : Fin 8) : (c.setHalves p).vec j = c.vec j := rfl
@[simp] theorem CoreState.setHalves_halted (p : Half × Half) : (c.setHalves p).halted = c.halted := rfl

end setHalves

section setCtrl

@[simp] theorem CoreState.setCtrl_vregs (n : BitVec 8) (m : Mode) (d : Dir) : (c.setCtrl n m d).vregs = c.vregs := rfl
@[simp] theorem CoreState.setCtrl_key (n : BitVec 8) (m : Mode) (d : Dir) : (c.setCtrl n m d).key = c.key := rfl
@[simp] theorem CoreState.setCtrl_iv (n : BitVec 8) (m : Mode) (d : Dir) : (c.setCtrl n m d).iv = c.iv := rfl
@[simp] theorem CoreState.setCtrl_feed (n : BitVec 8) (m : Mode) (d : Dir) : (c.setCtrl n m d).feed = c.feed := rfl
@[simp] theorem CoreState.setCtrl_left (n : BitVec 8) (m : Mode) (d : Dir) : (c.setCtrl n m d).left = c.left := rfl
@[simp] theorem CoreState.setCtrl_right (n : BitVec 8) (m : Mode) (d : Dir) : (c.setCtrl n m d).right = c.right := rfl
@[simp] theorem CoreState.setCtrl_nr (n : BitVec 8) (m : Mode) (d : Dir) : (c.setCtrl n m d).nr = n := rfl
@[simp] theorem CoreState.setCtrl_mode (n : BitVec 8) (m : Mode) (d : Dir) : (c.setCtrl n m d).mode = m := rfl
@[simp] theorem CoreState.setCtrl_dir (n : BitVec 8) (m : Mode) (d : Dir) : (c.setCtrl n m d).dir = d := rfl
@[simp] theorem CoreState.setCtrl_fault (n : BitVec 8) (m : Mode) (d : Dir) : (c.setCtrl n m d).fault = c.fault := rfl
@[simp] theorem CoreState.setCtrl_faultInfo (n : BitVec 8) (m : Mode) (d : Dir) : (c.setCtrl n m d).faultInfo = c.faultInfo := rfl
@[simp] theorem CoreState.setCtrl_blkcnt (n : BitVec 8) (m : Mode) (d : Dir) : (c.setCtrl n m d).blkcnt = c.blkcnt := rfl
@[simp] theorem CoreState.setCtrl_vec (n : BitVec 8) (m : Mode) (d : Dir) (j : Fin 8) : (c.setCtrl n m d).vec j = c.vec j := rfl
@[simp] theorem CoreState.setCtrl_halted (n : BitVec 8) (m : Mode) (d : Dir) : (c.setCtrl n m d).halted = c.halted := rfl

end setCtrl

section setBlkcnt

@[simp] theorem CoreState.setBlkcnt_vregs (n : BitVec 32) : (c.setBlkcnt n).vregs = c.vregs := rfl
@[simp] theorem CoreState.setBlkcnt_key (n : BitVec 32) : (c.setBlkcnt n).key = c.key := rfl
@[simp] theorem CoreState.setBlkcnt_iv (n : BitVec 32) : (c.setBlkcnt n).iv = c.iv := rfl
@[simp] theorem CoreState.setBlkcnt_feed (n : BitVec 32) : (c.setBlkcnt n).feed = c.feed := rfl
@[simp] theorem CoreState.setBlkcnt_left (n : BitVec 32) : (c.setBlkcnt n).left = c.left := rfl
@[simp] theorem CoreState.setBlkcnt_right (n : BitVec 32) : (c.setBlkcnt n).right = c.right := rfl
@[simp] theorem CoreState.setBlkcnt_nr (n : BitVec 32) : (c.setBlkcnt n).nr = c.nr := rfl
@[simp] theorem CoreState.setBlkcnt_mode (n : BitVec 32) : (c.setBlkcnt n).mode = c.mode := rfl
@[simp] theorem CoreState.setBlkcnt_dir (n : BitVec 32) : (c.setBlkcnt n).dir = c.dir := rfl
@[simp] theorem CoreState.setBlkcnt_fault (n : BitVec 32) : (c.setBlkcnt n).fault = c.fault := rfl
@[simp] theorem CoreState.setBlkcnt_faultInfo (n : BitVec 32) : (c.setBlkcnt n).faultInfo = c.faultInfo := rfl
@[simp] theorem CoreState.setBlkcnt_blkcnt (n : BitVec 32) : (c.setBlkcnt n).blkcnt = n := rfl
@[simp] theorem CoreState.setBlkcnt_vec (n : BitVec 32) (j : Fin 8) : (c.setBlkcnt n).vec j = c.vec j := rfl
@[simp] theorem CoreState.setBlkcnt_halted (n : BitVec 32) : (c.setBlkcnt n).halted = c.halted := rfl

end setBlkcnt

@[simp] theorem State.withCore_core (d : CoreState) : (s.withCore d).core = d := rfl
@[simp] theorem State.withCore_pending (d : CoreState) : (s.withCore d).pending = s.pending := rfl
@[simp] theorem State.withCore_observed (d : CoreState) : (s.withCore d).observed = s.observed := rfl

@[simp] theorem State.observe_core (w : Word) : (s.observe w).core = s.core := rfl
@[simp] theorem State.observe_pending (w : Word) : (s.observe w).pending = s.pending := rfl
@[simp] theorem State.observe_observed (w : Word) : (s.observe w).observed = s.observed ++ [w] := rfl

@[simp] theorem State.withPending_core (p : List HostInput) : (s.withPending p).core = s.core := rfl
@[simp] theorem State.withPending_pending (p : List HostInput) : (s.withPending p).pending = p := rfl
@[simp] theorem State.withPending_observed (p : List HostInput) : (s.withPending p).observed = s.observed := rfl

end Sys2Proof.Machine
end

