-- ==== Sys2Proof/Laws/Ops.lean ====
section
/-! SUPPORT. What each shared operation can do: fault entry, the frame of a command, and the operand forms. -/

namespace Sys2Proof.Machine

open Sys2Proof

variable (c : CoreState) (s : State) (k : FaultKind) (w : Word)

theorem CoreState.halted_eq_false_iff : c.halted = false ↔ c.fault = none := by
  simp [CoreState.halted]

theorem CoreState.halted_of_none {c : CoreState} (h : c.fault = none) : c.halted = false := by
  simp [CoreState.halted, h]

@[simp] theorem CoreState.halted_reset : CoreState.reset.halted = false := rfl

@[simp] theorem CoreState.resetAll_eq : c.resetAll = CoreState.reset := rfl

/-- R214: the first fault is kept. -/
theorem CoreState.raise_halted (h : c.halted = true) : c.raise k w = c := by simp [CoreState.raise, h]

/-- R212: fault entry writes `STATUS.FAULT` and `FAULTINFO` and nothing else. -/
theorem CoreState.raise_running (h : c.halted = false) :
    c.raise k w = { c with fault := some k, faultInfo := w } := by simp [CoreState.raise, h]

theorem CoreState.halted_raise : (c.raise k w).halted = true := by
  unfold CoreState.raise
  split
  · assumption
  · rfl

section RaiseFrame

@[simp] theorem CoreState.raise_vregs : (c.raise k w).vregs = c.vregs := by unfold CoreState.raise; split <;> rfl
@[simp] theorem CoreState.raise_key : (c.raise k w).key = c.key := by unfold CoreState.raise; split <;> rfl
@[simp] theorem CoreState.raise_iv : (c.raise k w).iv = c.iv := by unfold CoreState.raise; split <;> rfl
@[simp] theorem CoreState.raise_feed : (c.raise k w).feed = c.feed := by unfold CoreState.raise; split <;> rfl
@[simp] theorem CoreState.raise_left : (c.raise k w).left = c.left := by unfold CoreState.raise; split <;> rfl
@[simp] theorem CoreState.raise_right : (c.raise k w).right = c.right := by unfold CoreState.raise; split <;> rfl
@[simp] theorem CoreState.raise_nr : (c.raise k w).nr = c.nr := by unfold CoreState.raise; split <;> rfl
@[simp] theorem CoreState.raise_mode : (c.raise k w).mode = c.mode := by unfold CoreState.raise; split <;> rfl
@[simp] theorem CoreState.raise_dir : (c.raise k w).dir = c.dir := by unfold CoreState.raise; split <;> rfl
@[simp] theorem CoreState.raise_blkcnt : (c.raise k w).blkcnt = c.blkcnt := by unfold CoreState.raise; split <;> rfl
@[simp] theorem CoreState.raise_vec (i : Fin 8) : (c.raise k w).vec i = c.vec i := by simp [CoreState.vec]

end RaiseFrame

section Command

variable (i : Instr) (body : CoreState → Except FaultKind CoreState)

/-- R214: halted, no command executes. -/
theorem command_halted (h : s.core.halted = true) : command i s body = .next s := by simp [command, h]

/-- R85, R88: a register field 8..15 is `IllegalOperation`, whatever the operands. -/
theorem command_illFormed (h : s.core.halted = false) (hw : i.wellFormed = false) :
    command i s body = .next (s.withCore (s.core.raise .illegalOperation (encode i))) := by simp [command, h, hw]

/-- R88 step 4: a command whose checks pass writes what its rule writes. -/
theorem command_ok {d : CoreState} (h : s.core.halted = false) (hw : i.wellFormed = true) (hb : body s.core = .ok d) :
    command i s body = .next (s.withCore d) := by simp [command, h, hw, hb]

/-- R88 step 3, R212: a command whose check fails is its fault entry with the command word. -/
theorem command_error (h : s.core.halted = false) (hw : i.wellFormed = true) (hb : body s.core = .error k) :
    command i s body = .next (s.withCore (s.core.raise k (encode i))) := by simp [command, h, hw, hb]

/-- Everything a command can do. -/
theorem command_cases :
    (s.core.halted = true ∧ command i s body = .next s) ∨
    (s.core.halted = false ∧ i.wellFormed = true ∧
      ∃ d, body s.core = .ok d ∧ command i s body = .next (s.withCore d)) ∨
    (s.core.halted = false ∧ i.wellFormed = true ∧
      ∃ k, body s.core = .error k ∧ command i s body = .next (s.withCore (s.core.raise k (encode i)))) ∨
    (s.core.halted = false ∧ i.wellFormed = false ∧
      command i s body = .next (s.withCore (s.core.raise .illegalOperation (encode i)))) := by
  cases h : s.core.halted
  · cases hw : i.wellFormed
    · exact .inr (.inr (.inr ⟨rfl, rfl, command_illFormed s i body h hw⟩))
    · cases hb : body s.core with
      | ok d => exact .inr (.inl ⟨rfl, rfl, d, rfl, command_ok s i body h hw hb⟩)
      | error k => exact .inr (.inr (.inl ⟨rfl, rfl, k, rfl, command_error s k i body h hw hb⟩))
  · exact .inl ⟨rfl, command_halted s i body h⟩

end Command

section Operands

variable (r : RegNum)

/-- R85: the register a legal field names has the field's number. -/
theorem regIdx_val (h : RegNum.valid r = true) : (regIdx r).val = r.toNat := by
  simp only [RegNum.valid, decide_eq_true_eq] at h
  simp [regIdx, Nat.mod_eq_of_lt h]

theorem srcVec_writeVd_same (x : Vec) : srcVec (writeVd c r x) r = x := by simp [srcVec, writeVd]

@[simp] theorem storeVec_ok (x : Vec) : storeVec c r (.ok x) = .ok (writeVd c r x) := rfl
@[simp] theorem storeVec_error : storeVec c r (.error k) = .error k := rfl

/-- The block check of R159, R163, R164 and R192. -/
theorem blockOperand_cases :
    (∃ b, srcVec c r = ⟨64, b⟩ ∧ blockOperand c r = .ok b) ∨
      ((srcVec c r).len ≠ 64 ∧ blockOperand c r = .error .invalidBlockLength) := by
  unfold blockOperand
  cases h : (srcVec c r).ofLen? 64 with
  | some b => exact .inl ⟨b, Vec.ofLen?_eq_some.mp h, rfl⟩
  | none => exact .inr ⟨Vec.ofLen?_eq_none.mp h, rfl⟩

/-- The key and IV check of R133 and R190. -/
theorem key64Operand_cases :
    (∃ b, srcVec c r = ⟨64, b⟩ ∧ key64Operand c r = .ok b) ∨
      ((srcVec c r).len ≠ 64 ∧ key64Operand c r = .error .lengthMismatch) := by
  unfold key64Operand
  cases h : (srcVec c r).ofLen? 64 with
  | some b => exact .inl ⟨b, Vec.ofLen?_eq_some.mp h, rfl⟩
  | none => exact .inr ⟨Vec.ofLen?_eq_none.mp h, rfl⟩

theorem blockOperand_of_len {b : Block} (h : srcVec c r = ⟨64, b⟩) : blockOperand c r = .ok b := by
  simp [blockOperand, h]

theorem key64Operand_of_len {b : Block} (h : srcVec c r = ⟨64, b⟩) : key64Operand c r = .ok b := by
  simp [key64Operand, h]

/-- The capacity check of R111 and R115. -/
theorem checkCapacity_cases (x : Vec) :
    (x.len ≤ 128 ∧ checkCapacity x = .ok x) ∨ (128 < x.len ∧ checkCapacity x = .error .capacityExceeded) := by
  unfold checkCapacity
  split
  · exact .inr ⟨‹_›, rfl⟩
  · exact .inl ⟨Nat.not_lt.mp ‹_›, rfl⟩

end Operands

end Sys2Proof.Machine
end

