-- ==== Sys2Proof/Laws/Exec.lean ====
section
/-! SUPPORT. Every command is its body inside the one frame `command`; what its body answers, by R211. -/

namespace Sys2Proof.Machine

open Sys2Proof

/-- What each command checks, computes and writes. -/
def bodyOf (i : Instr) (c : CoreState) : Except FaultKind CoreState :=
  match i with
  | .vzero vd len => storeVec c vd (checkCapacity (Vec.zero len.toNat))
  | .vshr vd va n => storeVec c vd (.ok ((srcVec c va).shiftRight n.toNat))
  | .vshl vd va n => storeVec c vd (.ok ((srcVec c va).shiftLeft n.toNat))
  | .vxor vd va vb => storeVec c vd ((srcVec c va).xor (srcVec c vb))
  | .vcat vd va vb => storeVec c vd (checkCapacity ((srcVec c va).concat (srcVec c vb)))
  | .vslice vd va start stop => storeVec c vd ((srcVec c va).slice start.toNat stop.toNat)
  | .ldkey va => (key64Operand c va).map c.setKey
  | .subkey vd r => storeVec c vd (.ok ⟨32, roundSubkey c.key r.toNat⟩)
  | .frnd vd va vb => storeVec c vd (vecRoundF (srcVec c va) (srcVec c vb))
  | .bsplit va => (blockOperand c va).map fun b => c.setHalves (halves b)
  | .rnde r => .ok (c.setHalves (encRound c.key r.toNat c.pair))
  | .rndd r => .ok (c.setHalves (decRound c.key r.toNat c.pair))
  | .bjoin vd => .ok (writeVd c vd ⟨64, join c.pair⟩)
  | .enc vd va => (blockOperand c va).map fun b => storePair c vd (encryptPair b c.key c.nr.toNat)
  | .dec vd va => (blockOperand c va).map fun b => storePair c vd (decryptPair b c.key c.nr.toNat)
  | .ldiv va => (key64Operand c va).map c.setIv
  | .mstart => .ok ((c.setFeed c.iv).setBlkcnt 0)
  | .mblk vd va =>
    (blockOperand c va).map fun x => storeBlockStep c vd (chainBlock c.mode c.dir c.key c.nr.toNat x c.feed)

/-- Every command runs its body in the frame. -/
theorem exec_eq_command (i : Instr) (s : State) : exec i s = command i s (bodyOf i) := by
  cases i <;> rfl

/-- R10, R248: every command answers a next state, and leaves the host's side alone. -/
theorem exec_next (i : Instr) (s : State) : ∃ d, exec i s = .next (s.withCore d) := by
  rw [exec_eq_command]
  rcases command_cases s i (bodyOf i) with ⟨_, h⟩ | ⟨_, _, d, _, h⟩ | ⟨_, _, k, _, h⟩ | ⟨_, _, h⟩
  · exact ⟨s.core, h⟩
  · exact ⟨d, h⟩
  · exact ⟨_, h⟩
  · exact ⟨_, h⟩

/-- A command that completes touches neither the fault registers nor `CTRL` (R27, R26). -/
theorem bodyOf_ok {i : Instr} {c d : CoreState} (h : bodyOf i c = .ok d) :
    d.fault = c.fault ∧ d.faultInfo = c.faultInfo ∧ d.nr = c.nr ∧ d.mode = c.mode ∧ d.dir = c.dir := by
  have hs : ∀ (r : RegNum) (x : Except FaultKind Vec), storeVec c r x = .ok d →
      d.fault = c.fault ∧ d.faultInfo = c.faultInfo ∧ d.nr = c.nr ∧ d.mode = c.mode ∧ d.dir = c.dir := by
    intro r x hx
    cases x with
    | error k => cases hx
    | ok x =>
      cases hx
      simp [writeVd]
  have hb : ∀ (x : Except FaultKind Block) (f : Block → CoreState), x.map f = .ok d → ∃ b, d = f b := by
    intro x f hx
    cases x with
    | error k => cases hx
    | ok b => exact ⟨b, by cases hx; rfl⟩
  cases i <;> simp only [bodyOf] at h
  case rnde | rndd | bjoin | mstart => cases h; simp [writeVd]
  case ldkey | bsplit | enc | dec | ldiv | mblk =>
    obtain ⟨b, rfl⟩ := hb _ _ h
    simp [storePair, storeBlockStep, writeVd]
  all_goals exact hs _ _ h

/-- R211: a command's own check fails exactly as the table of faults says. -/
theorem bodyOf_fault (i : Instr) (c : CoreState) :
    (operandFault i c = none ∧ ∃ d, bodyOf i c = .ok d) ∨
      (∃ k, operandFault i c = some k ∧ ownFault i = some k ∧ bodyOf i c = .error k) := by
  cases i <;> simp only [bodyOf, operandFault, ownFault]
  case vshr | vshl | subkey | rnde | rndd | bjoin | mstart => exact .inl ⟨trivial, _, rfl⟩
  case vzero vd len =>
    rcases checkCapacity_cases (Vec.zero len.toNat) with ⟨h, e⟩ | ⟨h, e⟩ <;> rw [e]
    · exact .inl ⟨if_neg (by simpa using h), _, rfl⟩
    · exact .inr ⟨_, if_pos h, rfl, rfl⟩
  case vcat vd va vb =>
    rcases checkCapacity_cases ((srcVec c va).concat (srcVec c vb)) with ⟨h, e⟩ | ⟨h, e⟩ <;> rw [e]
    · exact .inl ⟨if_neg (by simpa using h), _, rfl⟩
    · exact .inr ⟨_, if_pos h, rfl, rfl⟩
  case vxor vd va vb =>
    rcases Vec.xor_cases (srcVec c va) (srcVec c vb) with ⟨h, x, e, _⟩ | ⟨h, e⟩ <;> rw [e]
    · exact .inl ⟨if_neg (by simpa using h), _, rfl⟩
    · exact .inr ⟨_, if_pos h, rfl, rfl⟩
  case frnd vd va vb =>
    rcases vecRoundF_cases (srcVec c va) (srcVec c vb) with ⟨h, x, e, _⟩ | ⟨h, e⟩ <;> rw [e]
    · exact .inl ⟨if_neg (by simpa using h), _, rfl⟩
    · exact .inr ⟨_, if_pos h, rfl, rfl⟩
  case vslice vd va start stop =>
    rcases Vec.slice_cases (srcVec c va) start.toNat stop.toNat with ⟨h, h', x, e, _⟩ | ⟨h, e⟩ <;> rw [e]
    · exact .inl ⟨if_neg (by omega), _, rfl⟩
    · exact .inr ⟨_, if_pos h, rfl, rfl⟩
  case ldkey va | ldiv va =>
    rcases key64Operand_cases c va with ⟨b, h, e⟩ | ⟨h, e⟩ <;> rw [e]
    · exact .inl ⟨by simp [h], _, rfl⟩
    · exact .inr ⟨_, if_pos h, rfl, rfl⟩
  case bsplit va | enc vd va | dec vd va | mblk vd va =>
    rcases blockOperand_cases c va with ⟨b, h, e⟩ | ⟨h, e⟩ <;> rw [e]
    · exact .inl ⟨by simp [h], _, rfl⟩
    · exact .inr ⟨_, if_pos h, rfl, rfl⟩

end Sys2Proof.Machine
end

