-- ==== Sys2Proof/Laws/Message.lean ====
section
/-! SUPPORT. Packing and unpacking the words of a block (R69): each undoes the other, and both agree with the bytes of R54. -/

namespace Sys2Proof.Machine

open Sys2Proof

/-- The first word of a block is its high 32 bits in the integer view. -/
theorem word_zero_eq (b : Block) : Vec.word ⟨64, b⟩ 0 = b.extractLsb' 32 32 := by
  apply BitVec.eq_of_getMsbD_eq
  intro k hk
  rw [Vec.word_pos _ (h := hk)]
  simp only [Vec.pos, BitVec.getMsbD_eq_getLsbD]
  grind

/-- The second word of a block is its low 32 bits in the integer view. -/
theorem word_one_eq (b : Block) : Vec.word ⟨64, b⟩ 1 = b.extractLsb' 0 32 := by
  apply BitVec.eq_of_getMsbD_eq
  intro k hk
  rw [Vec.word_pos _ (h := hk)]
  simp only [Vec.pos, BitVec.getMsbD_eq_getLsbD]
  grind

theorem blockWords_eq (b : Block) : blockWords b = [b.extractLsb' 32 32, b.extractLsb' 0 32] := by
  rw [blockWords, word_zero_eq, word_one_eq]

/-- R69: unpacking the two words of a block gives the block. -/
@[simp] theorem blocksOfWords_blockWords (b : Block) (ws : List Word) :
    blocksOfWords (blockWords b ++ ws) = b :: blocksOfWords ws := by
  have h : blockOfWords (b.extractLsb' 32 32) (b.extractLsb' 0 32) = b := by
    apply BitVec.eq_of_getLsbD_eq
    intro i hi
    simp only [blockOfWords]
    grind
  simp [blockWords_eq, blocksOfWords, h]

/-- R69: the words of a list of blocks unpack to those blocks. -/
@[simp] theorem blocksOfWords_flatMap (bs : List Block) : blocksOfWords (bs.flatMap blockWords) = bs := by
  induction bs with
  | nil => rfl
  | cons b bs ih => rw [List.flatMap_cons, blocksOfWords_blockWords, ih]

/-- R69: the bytes packed into a word are the bytes it unpacks to. -/
@[simp] theorem wordBytes_packWord (b0 b1 b2 b3 : Byte) : wordBytes (packWord b0 b1 b2 b3) = [b0, b1, b2, b3] := by
  simp only [wordBytes, packWord, List.cons.injEq, and_true]
  refine ⟨?_, ?_, ?_, ?_⟩ <;> (apply BitVec.eq_of_getLsbD_eq; intro i hi; grind)

/-- R54, R69: the bytes of a block's two words are the bytes of the block. -/
theorem bytesOfWords_blockWords (b : Block) : bytesOfWords (blockWords b) = Vec.toBytes ⟨64, b⟩ := by
  rw [blockWords_eq]
  simp only [Vec.toBytes, show (64 + 7) / 8 = 8 from rfl, bytesOfWords, wordBytes, List.flatMap_cons, List.flatMap_nil, List.cons_append, List.nil_append,
    List.range_succ, List.range_zero, List.map_cons, List.map_nil, List.append_nil,
    Vec.byteAt, List.cons.injEq, and_true]
  refine ⟨?_, ?_, ?_, ?_, ?_, ?_, ?_, ?_⟩ <;> (apply BitVec.eq_of_getLsbD_eq; intro i hi; grind)

/-- R54, R69: the bytes of the words read back are the bytes of the result blocks. -/
theorem bytesOfWords_flatMap (bs : List Block) : bytesOfWords (bs.flatMap blockWords) = bytesOf bs := by
  induction bs with
  | nil => rfl
  | cons b bs ih =>
    rw [List.flatMap_cons, bytesOf, List.flatMap_cons, ← bytesOf, ← ih, ← bytesOfWords_blockWords]
    simp [bytesOfWords]

/-- R69: the words the host loads for eight bytes of the message are those bytes packed. -/
theorem blocksOf_blockWords (b0 b1 b2 b3 b4 b5 b6 b7 : Byte) (rest : List Byte) :
    (blocksOf (b0 :: b1 :: b2 :: b3 :: b4 :: b5 :: b6 :: b7 :: rest)).flatMap blockWords =
      packWord b0 b1 b2 b3 :: packWord b4 b5 b6 b7 :: (blocksOf rest).flatMap blockWords := by
  have e : resize 64 (Vec.fromBytes [b0, b1, b2, b3, b4, b5, b6, b7]).bits =
      packWord b0 b1 b2 b3 ++ packWord b4 b5 b6 b7 := by
    have hv : (Vec.fromBytes [b0, b1, b2, b3, b4, b5, b6, b7]).resize 64 =
        ⟨64, packWord b0 b1 b2 b3 ++ packWord b4 b5 b6 b7⟩ := by
      refine Vec.ext_pos rfl fun i hi => ?_
      have hi : i < 64 := hi
      rw [Vec.resize_pos, if_pos hi]
      simp only [Vec.fromBytes, Vec.concat_pos]
      simp only [Vec.pos, packWord, BitVec.getMsbD_append]
      grind
    simpa [Vec.resize] using hv
  have h (w v : Word) : blockWords (w ++ v) = [w, v] := by
    rw [blockWords_eq, List.cons.injEq, List.cons.injEq]
    refine ⟨?_, ?_, rfl⟩ <;> (apply BitVec.eq_of_getLsbD_eq; intro i hi; grind)
  rw [blocksOf, List.flatMap_cons, e, h]
  rfl

end Sys2Proof.Machine
end

