-- ==== Sys2Proof/Laws/PerInstr.lean ====
section
/-! SUPPORT. The family `EncodeMatches`: a well-formed instruction's word keeps its row's pattern under its row's mask (R83). -/

namespace Sys2Proof.Laws.EncodeMatches

open Sys2Proof

/-- R83: "a word `w` is a legal encoding of the row exactly when `w & mask = match`", for the encoder's words. -/
def Statement (i : Instr) : Prop := i.WellFormed → encode i &&& i.opcode.mask = i.opcode.pattern

section Shapes

variable (op : Opcode) (vd va vb : RegNum) (imm : Imm) (start stop : Bound)

theorem formatR_match (m1 m2 m3 : BitVec 4) (hm : op.mask = layout 0xFF m1 m2 m3 0xFFF)
    (h1 : vd &&& m1 = 0) (h2 : va &&& m2 = 0) (h3 : vb &&& m3 = 0) :
    formatR op vd va vb &&& op.mask = op.pattern := by
  have hb : op.byte &&& 0xFF = op.byte := by cases op <;> rfl
  rw [hm, formatR_eq_layout, pattern_eq_layout, layout_and, hb, h1, h2, h3]
  rfl

theorem formatI_match (m1 m2 : BitVec 4) (hm : op.mask = layout 0xFF m1 m2 0xF 0)
    (h1 : vd &&& m1 = 0) (h2 : va &&& m2 = 0) : formatI op vd va imm &&& op.mask = op.pattern := by
  have hb : op.byte &&& 0xFF = op.byte := by cases op <;> rfl
  have hi : imm &&& 0 = 0 := BitVec.and_zero
  rw [hm, formatI_eq_layout, pattern_eq_layout, layout_and, hb, h1, h2, hi]
  rfl

theorem formatS_match (m1 m2 : BitVec 4) (hm : op.mask = layoutS 0xFF m1 m2 0 0)
    (h1 : vd &&& m1 = 0) (h2 : va &&& m2 = 0) : formatS op vd va start stop &&& op.mask = op.pattern := by
  have hb : op.byte &&& 0xFF = op.byte := by cases op <;> rfl
  have hs : start &&& 0 = 0 := BitVec.and_zero
  have he : stop &&& 0 = 0 := BitVec.and_zero
  rw [hm, formatS_eq_layoutS, pattern_eq_layoutS, layoutS_and, hb, h1, h2, hs, he]

end Shapes

theorem vzero (vd : RegNum) (len : Imm) : Statement (.vzero vd len) := fun h =>
  formatI_match .vzero vd 0 len 8 0xF rfl ((RegNum.valid_iff _).mp h) rfl

theorem vshr (vd va : RegNum) (n : Imm) : Statement (.vshr vd va n) := fun h => by
  simp only [Instr.WellFormed, Instr.wellFormed, Bool.and_eq_true, RegNum.valid_iff] at h
  exact formatI_match .vshr vd va n 8 8 rfl h.1 h.2

theorem vshl (vd va : RegNum) (n : Imm) : Statement (.vshl vd va n) := fun h => by
  simp only [Instr.WellFormed, Instr.wellFormed, Bool.and_eq_true, RegNum.valid_iff] at h
  exact formatI_match .vshl vd va n 8 8 rfl h.1 h.2

theorem vxor (vd va vb : RegNum) : Statement (.vxor vd va vb) := fun h => by
  simp only [Instr.WellFormed, Instr.wellFormed, Bool.and_eq_true, RegNum.valid_iff] at h
  exact formatR_match .vxor vd va vb 8 8 8 rfl h.1.1 h.1.2 h.2

theorem vcat (vd va vb : RegNum) : Statement (.vcat vd va vb) := fun h => by
  simp only [Instr.WellFormed, Instr.wellFormed, Bool.and_eq_true, RegNum.valid_iff] at h
  exact formatR_match .vcat vd va vb 8 8 8 rfl h.1.1 h.1.2 h.2

theorem vslice (vd va : RegNum) (start stop : Bound) : Statement (.vslice vd va start stop) := fun h => by
  simp only [Instr.WellFormed, Instr.wellFormed, Bool.and_eq_true, RegNum.valid_iff] at h
  exact formatS_match .vslice vd va start stop 8 8 rfl h.1 h.2

theorem ldkey (va : RegNum) : Statement (.ldkey va) := fun h =>
  formatR_match .ldkey 0 va 0 0xF 8 0xF rfl rfl ((RegNum.valid_iff _).mp h) rfl

theorem subkey (vd : RegNum) (r : Imm) : Statement (.subkey vd r) := fun h =>
  formatI_match .subkey vd 0 r 8 0xF rfl ((RegNum.valid_iff _).mp h) rfl

theorem frnd (vd va vb : RegNum) : Statement (.frnd vd va vb) := fun h => by
  simp only [Instr.WellFormed, Instr.wellFormed, Bool.and_eq_true, RegNum.valid_iff] at h
  exact formatR_match .frnd vd va vb 8 8 8 rfl h.1.1 h.1.2 h.2

theorem bsplit (va : RegNum) : Statement (.bsplit va) := fun h =>
  formatR_match .bsplit 0 va 0 0xF 8 0xF rfl rfl ((RegNum.valid_iff _).mp h) rfl

theorem rnde (r : Imm) : Statement (.rnde r) := fun _ => formatI_match .rnde 0 0 r 0xF 0xF rfl rfl rfl

theorem rndd (r : Imm) : Statement (.rndd r) := fun _ => formatI_match .rndd 0 0 r 0xF 0xF rfl rfl rfl

theorem bjoin (vd : RegNum) : Statement (.bjoin vd) := fun h =>
  formatR_match .bjoin vd 0 0 8 0xF 0xF rfl ((RegNum.valid_iff _).mp h) rfl rfl

theorem enc (vd va : RegNum) : Statement (.enc vd va) := fun h => by
  simp only [Instr.WellFormed, Instr.wellFormed, Bool.and_eq_true, RegNum.valid_iff] at h
  exact formatR_match .enc vd va 0 8 8 0xF rfl h.1 h.2 rfl

theorem dec (vd va : RegNum) : Statement (.dec vd va) := fun h => by
  simp only [Instr.WellFormed, Instr.wellFormed, Bool.and_eq_true, RegNum.valid_iff] at h
  exact formatR_match .dec vd va 0 8 8 0xF rfl h.1 h.2 rfl

theorem ldiv (va : RegNum) : Statement (.ldiv va) := fun h =>
  formatR_match .ldiv 0 va 0 0xF 8 0xF rfl rfl ((RegNum.valid_iff _).mp h) rfl

theorem mstart : Statement .mstart := fun _ => rfl

theorem mblk (vd va : RegNum) : Statement (.mblk vd va) := fun h => by
  simp only [Instr.WellFormed, Instr.wellFormed, Bool.and_eq_true, RegNum.valid_iff] at h
  exact formatR_match .mblk vd va 0 8 8 0xF rfl h.1 h.2 rfl

end Sys2Proof.Laws.EncodeMatches
end

