-- ==== Sys2Proof/Laws/Port.lean ====
section
/-! SUPPORT. The register map on the indices the host uses, and what a read, a write and a step can do. -/

namespace Sys2Proof.Machine

open Sys2Proof

@[simp] theorem portReg_vlenIdx (i : Fin 8) : portReg (vlenIdx i) = .vlen i := by revert i; decide
@[simp] theorem portReg_vdataIdx (i : Fin 8) (j : Fin 4) : portReg (vdataIdx i j) = .vdata i j := by revert i j; decide
@[simp] theorem portReg_ctrlIdx : portReg ctrlIdx = .ctrl := rfl
@[simp] theorem portReg_statusIdx : portReg statusIdx = .status := rfl
@[simp] theorem portReg_cmdIdx : portReg cmdIdx = .cmd := rfl
@[simp] theorem portReg_srstIdx : portReg srstIdx = .srst := rfl
@[simp] theorem regIdx_regNumOf (i : Fin 8) : regIdx (regNumOf i) = i := by revert i; decide
@[simp] theorem regNumOf_valid (i : Fin 8) : RegNum.valid (regNumOf i) = true := by revert i; decide
@[simp] theorem modeOf?_field (m : Mode) : modeOf? m.field = some m := by cases m <;> rfl
@[simp] theorem dirOf_field (d : Dir) : dirOf d.field = d := by cases d <;> rfl

/-- Only one index names `CMD`, and only one `SRST`. -/
theorem portReg_eq_cmd (idx : PortIndex) : portReg idx = .cmd ↔ idx = cmdIdx := by revert idx; decide
theorem portReg_eq_srst (idx : PortIndex) : portReg idx = .srst ↔ idx = srstIdx := by revert idx; decide

/-- An index that names `VLEN_i` is its index. -/
theorem portReg_eq_vlen (idx : PortIndex) (i : Fin 8) : portReg idx = .vlen i ↔ idx = vlenIdx i := by
  revert idx i
  decide

/-- R28: the record of a register access is no command. -/
theorem decode_accessInfo (wr : Bool) (idx : PortIndex) : decode (accessInfo wr idx) = .error .unassignedOpcode := by
  apply decode_error_of_ff
  revert wr idx
  decide

/-- R52: the registers that read as a word are the readable ones. -/
theorem readReg_isSome (c : CoreState) (r : PortReg) : (readReg c r).isSome = r.access.readable := by
  cases r <;> rfl

/-- Everything a `RegRead` can do (R53, R62, R68). -/
theorem regRead_cases (idx : PortIndex) (s : State) :
    (∃ w, readReg s.core (portReg idx) = some w ∧ regRead idx s = s.observe w) ∨
      (readReg s.core (portReg idx) = none ∧
        regRead idx s = (s.withCore (s.core.raise .illegalOperation (accessInfo false idx))).observe 0) := by
  unfold regRead
  cases h : readReg s.core (portReg idx) with
  | some w => exact .inl ⟨w, rfl, rfl⟩
  | none => exact .inr ⟨rfl, rfl⟩

/-- Everything a `RegWrite` can do (R53, R57 to R61, R68). -/
theorem regWrite_cases (idx : PortIndex) (w : Word) (s : State) :
    (portReg idx = .srst ∧ regWrite idx w s = .next (s.withCore .reset)) ∨
    (portReg idx ≠ .srst ∧ s.core.halted = true ∧ regWrite idx w s = .next s) ∨
    (s.core.halted = false ∧ portReg idx = .cmd ∧ regWrite idx w s = runWord w s) ∨
    (s.core.halted = false ∧ portReg idx = .ctrl ∧ regWrite idx w s = .next (s.withCore (writeCtrl w s.core))) ∨
    (s.core.halted = false ∧ ∃ i, portReg idx = .vlen i ∧
      regWrite idx w s = .next (s.withCore (writeVlen i w s.core))) ∨
    (s.core.halted = false ∧ ∃ i j, portReg idx = .vdata i j ∧
      regWrite idx w s = .next (s.withCore (writeVdata i j w s.core))) ∨
    (s.core.halted = false ∧ (portReg idx).access.writable = false ∧
      regWrite idx w s = .next (s.withCore (s.core.raise .illegalOperation (accessInfo true idx)))) := by
  unfold regWrite
  cases h : s.core.halted <;> cases hr : portReg idx <;> simp [PortReg.access, Access.writable]

/-- R60: what a word written to `CMD` does. -/
theorem runWord_cases (w : Word) (s : State) :
    (∃ i, decode w = .ok i ∧ runWord w s = exec i s) ∨
      (∃ e, decode w = .error e ∧ runWord w s = .next (s.withCore (s.core.raise .illegalOperation w))) := by
  unfold runWord
  cases h : decode w with
  | ok i => exact .inl ⟨i, rfl, rfl⟩
  | error e => exact .inr ⟨e, rfl, rfl⟩

/-- R57: what a length write does. -/
theorem writeVlen_cases (i : Fin 8) (w : Word) (c : CoreState) :
    (w.toNat ≤ 128 ∧ writeVlen i w c = c.setVec i ((c.vec i).resize w.toNat)) ∨
      (128 < w.toNat ∧ writeVlen i w c = c.raise .capacityExceeded (accessInfo true (vlenIdx i))) := by
  unfold writeVlen
  split
  · exact .inr ⟨‹_›, rfl⟩
  · exact .inl ⟨Nat.not_lt.mp ‹_›, rfl⟩

/-- R59: what a `CTRL` write does. -/
theorem writeCtrl_cases (w : Word) (c : CoreState) :
    (∃ m, modeOf? (w.extractLsb' 8 2) = some m ∧ w.extractLsb' 11 21 = 0 ∧ w.extractLsb' 0 8 ≠ 0 ∧
        writeCtrl w c = c.setCtrl (w.extractLsb' 0 8) m (dirOf (w.extractLsb' 10 1))) ∨
      writeCtrl w c = c.raise .illegalOperation (accessInfo true ctrlIdx) := by
  unfold writeCtrl
  cases h : modeOf? (w.extractLsb' 8 2) with
  | none => exact .inr rfl
  | some m =>
    by_cases hb : w.extractLsb' 11 21 ≠ 0 ∨ w.extractLsb' 0 8 = 0
    · exact .inr (if_pos hb)
    · exact .inl ⟨m, rfl, by tauto, by tauto, if_neg hb⟩

@[simp] theorem step_nil (s : State) (h : s.pending = []) : step s = .next s := by simp [step, h]

theorem step_cons (s : State) {t : HostInput} {rest : List HostInput} (h : s.pending = t :: rest) :
    step s = transact t (s.withPending rest) := by simp [step, h]

/-- R62: a step that reads a readable register appends its word and changes nothing else. -/
theorem step_read {s : State} {idx : PortIndex} {w : Word} {rest : List HostInput} (h : s.pending = .read idx :: rest)
    (hw : readReg s.core (portReg idx) = some w) :
    step s = .next { s with pending := rest, observed := s.observed ++ [w] } := by
  rw [step_cons s h]
  have hw' : readReg (s.withPending rest).core (portReg idx) = some w := hw
  show Host.Outcome.next (regRead idx _) = _
  simp only [regRead, hw']
  rfl

/-- R10: every host input completes; only CORE's state and the words read can change. -/
theorem transact_next (t : HostInput) (s : State) : ∃ d o, transact t s = .next { s with core := d, observed := o } := by
  cases t with
  | hardReset => exact ⟨_, s.observed, rfl⟩
  | read idx =>
    rcases regRead_cases idx s with ⟨w, _, h⟩ | ⟨_, h⟩
    · exact ⟨s.core, _, congrArg _ h⟩
    · exact ⟨_, _, congrArg _ h⟩
  | write idx w =>
    rcases regWrite_cases idx w s with ⟨_, h⟩ | ⟨_, _, h⟩ | ⟨_, _, h⟩ | ⟨_, _, h⟩ | ⟨_, i, _, h⟩ | ⟨_, i, j, _, h⟩ | ⟨_, _, h⟩
    case inr.inr.inl =>
      rcases runWord_cases w s with ⟨i, _, e⟩ | ⟨_, _, e⟩
      · obtain ⟨d, hd⟩ := exec_next i s
        exact ⟨d, s.observed, (h.trans e).trans hd⟩
      · exact ⟨_, s.observed, h.trans e⟩
    all_goals exact ⟨_, s.observed, h⟩

/-- `withFetchWord` makes its word the next command issued. -/
theorem step_withFetchWord (s : State) (nbits w : Nat) :
    step (s.withFetchWord nbits w) = regWrite cmdIdx (tableWord nbits w) s := rfl

end Sys2Proof.Machine
end

