-- ==== Sys2Proof/Machine/Assembler.lean ====
section
/-! DEFINITION. The assembler syntax of R89 and the pseudo-instructions of R90: one line of text to the command or host transaction it stands for, or to nothing where the line is not of that syntax. -/

namespace Sys2Proof.Machine

open Sys2Proof

/-- R89: blanks around a token do not count. DESIGN CHOICE: a blank is a space (assumption 12). -/
def dropBlanks (cs : List Char) : List Char := cs.dropWhile fun c => c == ' '

/-- A token without blanks before or after it. -/
def trimBlanks (cs : List Char) : List Char := (dropBlanks (dropBlanks cs).reverse).reverse

/-- R89: a `;` starts a comment to the end of the line. -/
def dropComment (cs : List Char) : List Char := cs.takeWhile fun c => c != ';'

/-- R89: operands are separated by commas. -/
def splitCommas : List Char → List (List Char)
  | [] => [[]]
  | c :: cs =>
    if c == ',' then [] :: splitCommas cs
    else
      match splitCommas cs with
      | [] => [[c]]
      | t :: ts => (c :: t) :: ts

/-- The operands of a line, after the mnemonic. -/
def operandTokens (cs : List Char) : List (List Char) :=
  if trimBlanks cs = [] then [] else (splitCommas cs).map trimBlanks

/-- The value of a decimal or hexadecimal digit. -/
def digitValue? (c : Char) : Option Nat :=
  let n := c.toNat
  if 48 ≤ n ∧ n ≤ 57 then some (n - 48)
  else if 65 ≤ n ∧ n ≤ 70 then some (n - 55)
  else if 97 ≤ n ∧ n ≤ 102 then some (n - 87)
  else none

/-- Digits in a base, the most significant first. -/
def digits? (base : Nat) : Nat → List Char → Option Nat
  | acc, [] => some acc
  | acc, c :: cs =>
    match digitValue? c with
    | some d => if d < base then digits? base (base * acc + d) cs else none
    | none => none

/-- R89: a number in decimal, or in hex with a `0x` prefix. -/
def number? : List Char → Option Nat
  | [] => none
  | '0' :: 'x' :: c :: cs => digits? 16 0 (c :: cs)
  | c :: cs => digits? 10 0 (c :: cs)

/-- R89: a value must fit its field; the assembler rejects one that does not and never truncates it. -/
def field? (width : Nat) (cs : List Char) : Option (BitVec width) :=
  match number? cs with
  | some n => if n < 2 ^ width then some (BitVec.ofNat width n) else none
  | none => none

/-- R89: registers are written `V0` .. `V7`. -/
def register? : List Char → Option RegNum
  | ['V', c] =>
    match digitValue? c with
    | some d => if d < 8 then some (BitVec.ofNat 4 d) else none
    | none => none
  | _ => none

/-- R81: operands `vd`. -/
def operandsD (f : RegNum → Instr) : List (List Char) → Option Instr
  | [d] => (register? d).map f
  | _ => none

/-- R81: operands `vd, va`. -/
def operandsDA (f : RegNum → RegNum → Instr) : List (List Char) → Option Instr
  | [d, a] => (register? d).bind fun vd => (register? a).map (f vd)
  | _ => none

/-- R81: operands `vd, va, vb`. -/
def operandsDAB (f : RegNum → RegNum → RegNum → Instr) : List (List Char) → Option Instr
  | [d, a, b] => (register? d).bind fun vd => (register? a).bind fun va => (register? b).map (f vd va)
  | _ => none

/-- R81: operands `vd, imm`. -/
def operandsDI (f : RegNum → Imm → Instr) : List (List Char) → Option Instr
  | [d, i] => (register? d).bind fun vd => (field? 12 i).map (f vd)
  | _ => none

/-- R81: operands `vd, va, imm`. -/
def operandsDAI (f : RegNum → RegNum → Imm → Instr) : List (List Char) → Option Instr
  | [d, a, i] => (register? d).bind fun vd => (register? a).bind fun va => (field? 12 i).map (f vd va)
  | _ => none

/-- R81: operand `imm`. -/
def operandsI (f : Imm → Instr) : List (List Char) → Option Instr
  | [i] => (field? 12 i).map f
  | _ => none

/-- R90: operands `vd, va, n` of `VTRUNC`, `n ≤ 255`. -/
def operandsDAN (f : RegNum → RegNum → Bound → Instr) : List (List Char) → Option Instr
  | [d, a, n] => (register? d).bind fun vd => (register? a).bind fun va => (field? 8 n).map (f vd va)
  | _ => none

/-- R81: operands `vd, va, start, end`. -/
def operandsDASE (f : RegNum → RegNum → Bound → Bound → Instr) : List (List Char) → Option Instr
  | [d, a, s, e] =>
    (register? d).bind fun vd => (register? a).bind fun va => (field? 8 s).bind fun lo => (field? 8 e).map (f vd va lo)
  | _ => none

/-- R83, R90: the instruction a mnemonic and its operands spell. -/
def instruction? (mnemonic : List Char) (ops : List (List Char)) : Option Instr :=
  if mnemonic = "VZERO".toList then operandsDI .vzero ops
  else if mnemonic = "VSHR".toList then operandsDAI .vshr ops
  else if mnemonic = "VSHL".toList then operandsDAI .vshl ops
  else if mnemonic = "VXOR".toList then operandsDAB .vxor ops
  else if mnemonic = "VCAT".toList then operandsDAB .vcat ops
  else if mnemonic = "VSLICE".toList then operandsDASE .vslice ops
  else if mnemonic = "LDKEY".toList then operandsD .ldkey ops
  else if mnemonic = "SUBKEY".toList then operandsDI .subkey ops
  else if mnemonic = "FRND".toList then operandsDAB .frnd ops
  else if mnemonic = "BSPLIT".toList then operandsD .bsplit ops
  else if mnemonic = "RNDE".toList then operandsI .rnde ops
  else if mnemonic = "RNDD".toList then operandsI .rndd ops
  else if mnemonic = "BJOIN".toList then operandsD .bjoin ops
  else if mnemonic = "ENC".toList then operandsDA .enc ops
  else if mnemonic = "DEC".toList then operandsDA .dec ops
  else if mnemonic = "LDIV".toList then operandsD .ldiv ops
  else if mnemonic = "MSTART".toList then (if ops = [] then some .mstart else none)
  else if mnemonic = "MBLK".toList then operandsDA .mblk ops
  else if mnemonic = "VMOV".toList then operandsDA Instr.vmov ops
  else if mnemonic = "VTRUNC".toList then operandsDAN Instr.vtrunc ops
  else none

/-- R89: the first token of a line, and what follows it. -/
def firstToken (line : List Char) : List Char × List Char :=
  let cs := dropBlanks (dropComment line)
  (cs.takeWhile fun c => c != ' ', cs.dropWhile fun c => c != ' ')

/-- R89: the command a line spells. -/
def assemble? (line : String) : Option Instr :=
  instruction? (firstToken line.toList).1 (operandTokens (firstToken line.toList).2)

/-- R52: the name of the window register of `V[i]`, `VLEN_i` or `VDATA_i[j]`. -/
def windowName? : List Char → Option PortIndex
  | ['V', 'L', 'E', 'N', '_', i] =>
    match digitValue? i with
    | some n => if n < 8 then some (vlenIdx (Fin.ofNat 8 n)) else none
    | none => none
  | ['V', 'D', 'A', 'T', 'A', '_', i, '[', j, ']'] =>
    match digitValue? i, digitValue? j with
    | some n, some m => if n < 8 ∧ m < 4 then some (vdataIdx (Fin.ofNat 8 n) (Fin.ofNat 4 m)) else none
    | _, _ => none
  | _ => none

/-- R52: the names of the registers that are no vector window, with their indices. -/
def controlNames : List (String × PortIndex) :=
  [("ID", 0x00), ("CTRL", 0x01), ("STATUS", 0x02), ("CMD", 0x03), ("FAULTINFO", 0x04), ("BLKCNT", 0x05), ("SRST", 0x06),
   ("KEY0", 0x08), ("KEY1", 0x09), ("IV0", 0x0A), ("IV1", 0x0B), ("FEED0", 0x0C), ("FEED1", 0x0D),
   ("LREG", 0x0E), ("RREG", 0x0F)]

/-- R89: a hex index. -/
def hexIndex? (cs : List Char) : Option PortIndex :=
  match cs with
  | '0' :: 'x' :: _ => field? 7 cs
  | _ => none

/-- R89: an index, "a register name of R52 or its hex index". -/
def index? (cs : List Char) : Option PortIndex :=
  match controlNames.find? fun e => e.1.toList == cs with
  | some e => some e.2
  | none =>
    match windowName? cs with
    | some idx => some idx
    | none => hexIndex? cs

/-- R89: a host transaction spelled `RegWrite idx, word` or `RegRead idx`, or a command, which is issued through `CMD`. -/
def hostLine? (line : String) : Option HostInput :=
  let ops := operandTokens (firstToken line.toList).2
  if (firstToken line.toList).1 = "RegWrite".toList then
    match ops with
    | [i, w] => (index? i).bind fun idx => (field? 32 w).map fun word => .write idx word
    | _ => none
  else if (firstToken line.toList).1 = "RegRead".toList then
    match ops with
    | [i] => (index? i).map .read
    | _ => none
  else (assemble? line).map fun i => .write cmdIdx (encode i)

end Sys2Proof.Machine
end

