-- ==== Sys2Proof/Tests/Slice0.lean ====
section
/-! SUPPORT. Tests of the model against the words and vectors of 95_test_vectors.md and the worked examples of the rules; each names its source. -/

namespace Sys2Proof.Tests

open Sys2Proof Sys2Proof.Machine

-- WellFormed: an ill-formed term for each register field of each shape (R85).
theorem test_wf_vzero_vd : Instr.wellFormed (.vzero 8 0) = false := by decide
theorem test_wf_vshr_vd : Instr.wellFormed (.vshr 8 0 1) = false := by decide
theorem test_wf_vshr_va : Instr.wellFormed (.vshr 0 9 1) = false := by decide
theorem test_wf_vshl_vd : Instr.wellFormed (.vshl 10 0 1) = false := by decide
theorem test_wf_vshl_va : Instr.wellFormed (.vshl 0 11 1) = false := by decide
theorem test_wf_vxor_vd : Instr.wellFormed (.vxor 8 0 0) = false := by decide
theorem test_wf_vxor_va : Instr.wellFormed (.vxor 0 8 0) = false := by decide
theorem test_wf_vxor_vb : Instr.wellFormed (.vxor 0 0 8) = false := by decide
theorem test_wf_vcat_vd : Instr.wellFormed (.vcat 12 0 0) = false := by decide
theorem test_wf_vcat_va : Instr.wellFormed (.vcat 0 13 0) = false := by decide
theorem test_wf_vcat_vb : Instr.wellFormed (.vcat 0 0 14) = false := by decide
theorem test_wf_vslice_vd : Instr.wellFormed (.vslice 8 0 0 0) = false := by decide
theorem test_wf_vslice_va : Instr.wellFormed (.vslice 0 8 0 0) = false := by decide
theorem test_wf_ldkey_va : Instr.wellFormed (.ldkey 8) = false := by decide
theorem test_wf_subkey_vd : Instr.wellFormed (.subkey 15 0) = false := by decide
theorem test_wf_frnd_vd : Instr.wellFormed (.frnd 8 0 0) = false := by decide
theorem test_wf_frnd_va : Instr.wellFormed (.frnd 0 8 0) = false := by decide
theorem test_wf_frnd_vb : Instr.wellFormed (.frnd 0 0 8) = false := by decide
theorem test_wf_bsplit_va : Instr.wellFormed (.bsplit 8) = false := by decide
theorem test_wf_bjoin_vd : Instr.wellFormed (.bjoin 8) = false := by decide
theorem test_wf_enc_vd : Instr.wellFormed (.enc 8 0) = false := by decide
theorem test_wf_enc_va : Instr.wellFormed (.enc 0 8) = false := by decide
theorem test_wf_dec_vd : Instr.wellFormed (.dec 8 0) = false := by decide
theorem test_wf_dec_va : Instr.wellFormed (.dec 0 8) = false := by decide
theorem test_wf_ldiv_va : Instr.wellFormed (.ldiv 8) = false := by decide
theorem test_wf_mblk_vd : Instr.wellFormed (.mblk 8 0) = false := by decide
theorem test_wf_mblk_va : Instr.wellFormed (.mblk 0 8) = false := by decide
theorem test_wf_all_registers : Instr.wellFormed (.vxor 7 0 5) = true := by decide

-- Decoding: T30-1 to T30-22, one word or more per constructor.
theorem test_decode_vzero : decode 0x10300008 = .ok (.vzero 3 8) := by decide
theorem test_decode_vshr : decode 0x11420002 = .ok (.vshr 4 2 2) := by decide
theorem test_decode_vshl : decode 0x12300003 = .ok (.vshl 3 0 3) := by decide
theorem test_decode_vxor : decode 0x13534000 = .ok (.vxor 5 3 4) := by decide
theorem test_decode_vcat : decode 0x14765000 = .ok (.vcat 7 6 5) := by decide
theorem test_decode_vslice : decode 0x15632040 = .ok (.vslice 6 3 32 64) := by decide
theorem test_decode_ldkey : decode 0x20010000 = .ok (.ldkey 1) := by decide
theorem test_decode_subkey : decode 0x21700FFF = .ok (.subkey 7 4095) := by decide
theorem test_decode_frnd : decode 0x22602000 = .ok (.frnd 6 0 2) := by decide
theorem test_decode_bsplit : decode 0x30000000 = .ok (.bsplit 0) := by decide
theorem test_decode_rnde : decode 0x31000003 = .ok (.rnde 3) := by decide
theorem test_decode_rndd : decode 0x32000003 = .ok (.rndd 3) := by decide
theorem test_decode_bjoin : decode 0x33200000 = .ok (.bjoin 2) := by decide
theorem test_decode_enc : decode 0x34300000 = .ok (.enc 3 0) := by decide
theorem test_decode_dec : decode 0x35430000 = .ok (.dec 4 3) := by decide
theorem test_decode_ldiv : decode 0x40010000 = .ok (.ldiv 1) := by decide
theorem test_decode_mstart : decode 0x41000000 = .ok .mstart := by decide
theorem test_decode_mblk : decode 0x42420000 = .ok (.mblk 4 2) := by decide
theorem test_decode_vmov : decode 0x11100000 = .ok (Instr.vmov 1 0) := by decide
theorem test_decode_vtrunc : decode 0x15210020 = .ok (Instr.vtrunc 2 1 32) := by decide
theorem test_encode_vslice : encode (.vslice 7 7 255 255) = 0x1577FFFF := by decide
theorem test_encode_vcat : encode (.vcat 7 6 5) = 0x14765000 := by decide

-- The illegal words listed under the encodings of 95_test_vectors.md.
theorem test_illegal_zero : decode 0x00000000 = .error .unassignedOpcode := by decide
theorem test_illegal_ones : decode 0xFFFFFFFF = .error .unassignedOpcode := by decide
theorem test_illegal_op16 : decode 0x16000000 = .error .unassignedOpcode := by decide
theorem test_illegal_mstart_tail : decode 0x41000001 = .error .mustBeZero := by decide
theorem test_illegal_vxor_tail : decode 0x13200001 = .error .mustBeZero := by decide
theorem test_illegal_vshr_vd8 : decode 0x11800001 = .error .registerNumber := by decide
theorem test_illegal_ldkey_vd : decode 0x20100000 = .error .mustBeZero := by decide
theorem test_illegal_rnde_vd : decode 0x31100000 = .error .mustBeZero := by decide
theorem test_illegal_vzero_va : decode 0x10310008 = .error .mustBeZero := by decide
theorem test_illegal_bjoin_va : decode 0x33210000 = .error .mustBeZero := by decide
theorem test_illegal_enc_vb : decode 0x34301000 = .error .mustBeZero := by decide
theorem test_table_word : decodeTableWord 32 0x42420000 = some (.mblk 4 2) := by decide

-- The BitVector functions: T40-3, T40-6, T40-10, T40-13 to T40-18.
theorem test_shr : Vec.shiftRight ⟨8, 0xB4⟩ 3 = ⟨8, 0x16⟩ := by decide
theorem test_shl : Vec.shiftLeft ⟨8, 0xB4⟩ 3 = ⟨8, 0xA0⟩ := by decide
theorem test_shr_beyond : Vec.shiftRight ⟨8, 0xB4⟩ 9 = ⟨8, 0⟩ := by decide
theorem test_shl_odd_length : Vec.shiftLeft ⟨5, 0b10110⟩ 2 = ⟨5, 0b11000⟩ := by decide
theorem test_concat : Vec.concat ⟨3, 0b101⟩ ⟨2, 0b11⟩ = ⟨5, 0b10111⟩ := by decide
theorem test_slice : Vec.slice ⟨64, 0x0123456789ABCDEF⟩ 4 9 = .ok ⟨5, 0b00010⟩ := by decide
theorem test_slice_empty : Vec.slice ⟨64, 0x0123456789ABCDEF⟩ 64 64 = .ok Vec.empty := by decide
theorem test_slice_order : Vec.slice ⟨64, 0x0123456789ABCDEF⟩ 5 4 = .error .indexOutOfRange := by decide
theorem test_slice_end : Vec.slice ⟨64, 0x0123456789ABCDEF⟩ 0 65 = .error .indexOutOfRange := by decide
theorem test_truncate : Vec.truncate ⟨64, 0x0123456789ABCDEF⟩ 32 = .ok ⟨32, 0x01234567⟩ := by decide
-- T20-1 (R54), and the zero fill of the last byte (R54).
theorem test_from_bytes : Vec.fromBytes [0x41, 0x42] = ⟨16, 0x4142⟩ := by decide
theorem test_to_bytes : Vec.toBytes ⟨12, 0xDEA⟩ = [0xDE, 0xA0] := by decide

-- T41-1, T41-5, T41-7, T42-2, T42-4, T42-9, T42-13.
theorem test_subkey_last : roundSubkey 0x0123456789ABCDEF 3 = 0x00000001 := by decide
theorem test_subkey_zero : roundSubkey 0x0123456789ABCDEF 4095 = 0 := by decide
theorem test_roundF_drops : roundF (0x80000000 : Half) 0x00000003 = 0 := by decide
theorem test_roundF : roundF (0x12345678 : Half) 0x01234567 = 0x91EA6299 := by decide
theorem test_encrypt_two : encrypt 0x0011223344556677 0x0123456789ABCDEF 2 = 0x24B45F524494A6B6 := by decide
theorem test_encrypt_four : encrypt 0x0011223344556677 0x0123456789ABCDEF 4 = 0x2D06BC2261365C6E := by decide
theorem test_decrypt_no_swap : decrypt 0x4494A6B600112233 0x0123456789ABCDEF 1 = 0x0011223344556677 := by decide
theorem test_decrypt_two : decrypt 0x0011223344556677 0x0123456789ABCDEF 2 = 0x22BA595A51CF7DFE := by decide

-- T43-1, T43-3, T43-5, T43-8, T43-9, T43-12.
theorem test_cbc : cbcEncrypt 0x0123456789ABCDEF 2 0xFEDCBA9876543210 [0x0011223344556677, 0x8899AABBCCDDEEFF] =
    [0xDFE7D34AC4254066, 0xCD63B360B343B048] := by decide
theorem test_cfb : cfbEncrypt 0x0123456789ABCDEF 2 0xFEDCBA9876543210 [0x0011223344556677, 0x8899AABBCCDDEEFF] =
    [0xF9046C32C4AC51FE, 0x17A287E0C01A0FC8] := by decide
theorem test_mode_none : encryptBlocks .none 0x0123456789ABCDEF 0 2 [0x0011223344556677, 0x8899AABBCCDDEEFF] =
    [0x24B45F524494A6B6, 0xCA5AB19A88586A7E] := by decide
theorem test_pad : padMessage [0x48, 0x45, 0x4C, 0x4C, 0x4F] = [0x48, 0x45, 0x4C, 0x4C, 0x4F, 0, 0, 0] := by decide
theorem test_message_cbc : encryptMessage .cbc [0x48, 0x45, 0x4C, 0x4C, 0x4F] 0x0123456789ABCDEF 0xFEDCBA9876543210 2 =
    [0xD8, 0x03, 0x11, 0x4D, 0x8D, 0xD3, 0x55, 0xE9] := by decide
-- R69's example: the bytes "ABCDEFGH" as two words, and back.
theorem test_pack : (blocksOf [0x41, 0x42, 0x43, 0x44, 0x45, 0x46, 0x47, 0x48]).flatMap blockWords =
    [0x41424344, 0x45464748] := by decide
theorem test_unpack : bytesOfWords [0x41424344, 0x45464748] = [0x41, 0x42, 0x43, 0x44, 0x45, 0x46, 0x47, 0x48] ∧
    blocksOfWords [0x41424344, 0x45464748] = [0x4142434445464748] := by decide
theorem test_message_ragged : decryptMessage .cbc (List.replicate 12 0) 0 0 2 = none := by decide

/-- CORE with `V0 = 0x00112233` (32 bits), `V1 = 0x0123456789ABCDEF`, `V2 = 0x0011223344556677`, and `KEY` loaded from `V1`. -/
def base : State :=
  State.reset.withCore
    ((((CoreState.reset.setVec 0 ⟨32, 0x00112233⟩).setVec 1 ⟨64, 0x0123456789ABCDEF⟩).setVec 2
      ⟨64, 0x0011223344556677⟩).setKey 0x0123456789ABCDEF)

/-- `base` with the chaining registers of S3 and the given mode and direction. -/
def chained (m : Mode) (d : Dir) : State :=
  base.withCore (((base.core.setIv 0xFEDCBA9876543210).setFeed 0xFEDCBA9876543210).setCtrl 2 m d)

/-- `base` halted by the fault of T60-6. -/
def haltedBase : State := base.withCore (base.core.raise .lengthMismatch 0x13201000)

/-- CORE's state after a step, where there is one. -/
def coreOf : Result → Option CoreState
  | .next s => some s.core
  | .fault _ => none
  | .refused _ => none

/-- The whole machine after a step, where there is one. -/
def stateOf : Result → Option State
  | .next s => some s
  | .fault _ => none
  | .refused _ => none

/-- What a vector register holds after a step. -/
def vecOf (r : Result) (i : Fin 8) : Option Vec := (coreOf r).map fun c => c.vec i

/-- The fault code and its record after a step. -/
def faultOf (r : Result) : Option (Option FaultKind × Word) := (coreOf r).map fun c => (c.fault, c.faultInfo)

/-- `L` and `R` after a step. -/
def pairOf (r : Result) : Option (Half × Half) := (coreOf r).map fun c => (c.left, c.right)

-- T40-20, T60-16.
theorem test_vzero : vecOf (exec (.vzero 0 128) base) 0 = some ⟨128, 0⟩ := by decide
theorem test_vzero_capacity : faultOf (exec (.vzero 0 129) base) = some (some .capacityExceeded, 0x10000081) := by decide
-- T40-23, T40-24.
theorem test_vshr_exec : vecOf (exec (.vshr 2 1 8) base) 2 = some ⟨64, 0x000123456789ABCD⟩ := by decide
theorem test_vshr_same : vecOf (exec (.vshr 1 1 12) base) 1 = some ⟨64, 0x0000123456789ABC⟩ := by decide
-- T40-25, T40-26.
theorem test_vshl_exec : vecOf (exec (.vshl 2 0 3) base) 2 = some ⟨32, 0x00891198⟩ := by decide
theorem test_vshl_beyond : vecOf (exec (.vshl 2 1 4095) base) 2 = some ⟨64, 0⟩ := by decide
-- T40-27, T60-6.
theorem test_vxor_exec : vecOf (exec (.vxor 2 1 1) base) 2 = some ⟨64, 0⟩ := by decide
theorem test_vxor_length : faultOf (exec (.vxor 2 0 1) base) = some (some .lengthMismatch, 0x13201000) := by decide
-- T40-30, and T40-29's second command at the capacity.
theorem test_vcat_exec : vecOf (exec (.vcat 3 0 1) base) 3 = some ⟨96, 0x001122330123456789ABCDEF⟩ := by decide
theorem test_vcat_full : vecOf (exec (.vcat 1 1 1) base) 1 = some ⟨128, 0x0123456789ABCDEF0123456789ABCDEF⟩ := by decide
-- T40-31, T60-15.
theorem test_vslice_exec : vecOf (exec (.vslice 3 1 8 24) base) 3 = some ⟨16, 0x2345⟩ := by decide
theorem test_vslice_range : faultOf (exec (.vslice 1 0 0 33) base) = some (some .indexOutOfRange, 0x15100021) := by decide
-- T41-11, T60-8.
theorem test_ldkey : (coreOf (exec (.ldkey 2) base)).map CoreState.key = some 0x0011223344556677 := by decide
theorem test_ldkey_length : faultOf (exec (.ldkey 0) base) = some (some .lengthMismatch, 0x20000000) := by decide
-- T41-12, T41-13.
theorem test_subkey_exec : vecOf (exec (.subkey 3 1) base) 3 = some ⟨32, 0x00012345⟩ := by decide
theorem test_subkey_far : vecOf (exec (.subkey 3 4095) base) 3 = some ⟨32, 0⟩ := by decide
-- T41-18, T60-7.
theorem test_frnd_wide : vecOf (exec (.frnd 3 1 1) base) 3 = some ⟨64, 0x0952FA65AF349C03⟩ := by decide
theorem test_frnd_length : faultOf (exec (.frnd 2 0 1) base) = some (some .lengthMismatch, 0x22201000) := by decide
-- T42-15, T60-10.
theorem test_bsplit : pairOf (exec (.bsplit 2) base) = some (0x00112233, 0x44556677) := by decide
theorem test_bsplit_length : faultOf (exec (.bsplit 0) base) = some (some .invalidBlockLength, 0x30000000) := by decide
-- T42-16, T42-18.
theorem test_rnde : pairOf (exec (.rnde 0) (base.withCore (base.core.setHalves (0x00112233, 0x44556677)))) =
    some (0x4494A6B6, 0x00112233) := by decide
theorem test_rnde_far : pairOf (exec (.rnde 4) (base.withCore (base.core.setHalves (0x00112233, 0x44556677)))) =
    some (0x44DC77EF, 0x00112233) := by decide
-- T42-17.
theorem test_rndd : pairOf (exec (.rndd 0) (base.withCore (base.core.setHalves (0x4494A6B6, 0x00112233)))) =
    some (0x00112233, 0x44556677) := by decide
-- R162's example.
theorem test_bjoin : vecOf (exec (.bjoin 2) (base.withCore (base.core.setHalves (0x2D06BC22, 0x61365C6E)))) 2 =
    some ⟨64, 0x2D06BC2261365C6E⟩ := by decide
-- R163's example with two rounds; T60-11.
theorem test_enc : vecOf (exec (.enc 3 2) base) 3 = some ⟨64, 0x24B45F524494A6B6⟩ := by decide
theorem test_enc_length : faultOf (exec (.enc 2 0) base) = some (some .invalidBlockLength, 0x34200000) := by decide
-- T42-13; T60-12.
theorem test_dec : vecOf (exec (.dec 2 2) base) 2 = some ⟨64, 0x22BA595A51CF7DFE⟩ := by decide
theorem test_dec_length : faultOf (exec (.dec 2 0) base) = some (some .invalidBlockLength, 0x35200000) := by decide
-- T43-18, T60-9.
theorem test_ldiv : (coreOf (exec (.ldiv 1) base)).map (fun c => (c.iv, c.feed)) = some (0x0123456789ABCDEF, 0) := by decide
theorem test_ldiv_length : faultOf (exec (.ldiv 0) base) = some (some .lengthMismatch, 0x40000000) := by decide
-- R191's example.
theorem test_mstart : (coreOf (exec .mstart (base.withCore ((base.core.setIv 0xFEDCBA9876543210).setBlkcnt 7)))).map
    (fun c => (c.feed, c.blkcnt)) = some (0xFEDCBA9876543210, 0) := by decide
-- R192's example (CBC), and P4's block (CFB) with its feed and keystream pair.
theorem test_mblk_cbc : (coreOf (exec (.mblk 4 2) (chained .cbc .encrypt))).map
    (fun c => (c.vec 4, c.feed, c.blkcnt)) = some (⟨64, 0xDFE7D34AC4254066⟩, 0xDFE7D34AC4254066, 1) := by decide
theorem test_mblk_cfb_decrypt : (coreOf (exec (.mblk 3 2) (chained .cfb .decrypt))).map
    (fun c => (c.vec 3, c.feed, c.left, c.right)) =
    some (⟨64, 0xF9046C32C4AC51FE⟩, 0x0011223344556677, 0xF9154E01, 0x80F93789) := by decide
-- R85: a register field of 8 faults before the operand check; T60-27: halted, ignored.
theorem test_register_eight : faultOf (exec (.vxor 8 0 1) base) = some (some .illegalOperation, 0x13801000) := by decide
theorem test_halted_ignored : stateOf (exec (.vzero 3 8) haltedBase) = some haltedBase := by decide

-- The port, one access each: T20-5, T20-7, T20-10, T20-2, T60-18 to T60-26, T60-30, T60-31.
theorem test_write_vlen : vecOf (regWrite 0x20 12 (base.withCore (base.core.setVec 0 ⟨32, 0xDEADBEEF⟩))) 0 =
    some ⟨12, 0xDEA⟩ := by decide
theorem test_write_vdata : vecOf (regWrite 0x24 0xFFFFFFFF (base.withCore (base.core.setVec 0 ⟨12, 0⟩))) 0 =
    some ⟨12, 0xFFF⟩ := by decide
theorem test_write_ctrl : (coreOf (regWrite 0x01 0x00000502 base)).map (fun c => (c.nr, c.mode, c.dir)) =
    some (2, .cbc, .decrypt) := by decide
theorem test_read_vdata : (regRead 0x2D base).observed = [0x89ABCDEF] := by decide
theorem test_read_short : (regRead 0x24 (base.withCore (base.core.setVec 0 ⟨12, 0xDEA⟩))).observed = [0xDEA00000] := by decide
theorem test_read_id : (regRead 0x00 base).observed = [0x49425437] := by decide
theorem test_vlen_capacity : faultOf (regWrite 0x20 129 base) = some (some .capacityExceeded, 0xFF0000A0) := by decide
theorem test_ctrl_nr_zero : faultOf (regWrite 0x01 0 base) = some (some .illegalOperation, 0xFF000081) := by decide
theorem test_ctrl_mode_three : faultOf (regWrite 0x01 0x302 base) = some (some .illegalOperation, 0xFF000081) := by decide
theorem test_ctrl_bit_eleven : faultOf (regWrite 0x01 0x802 base) = some (some .illegalOperation, 0xFF000081) := by decide
theorem test_write_id : faultOf (regWrite 0x00 1 base) = some (some .illegalOperation, 0xFF000080) := by decide
theorem test_write_reserved : faultOf (regWrite 0x21 0 base) = some (some .illegalOperation, 0xFF0000A1) := by decide
theorem test_read_cmd : faultOf (.next (regRead 0x03 base)) = some (some .illegalOperation, 0xFF000003) := by decide
theorem test_read_reserved : (regRead 0x60 base).observed = [0] := by decide
theorem test_illegal_command : faultOf (regWrite 0x03 0x13211001 base) = some (some .illegalOperation, 0x13211001) := by decide
theorem test_halted_write : stateOf (regWrite 0x20 8 haltedBase) = some haltedBase := by decide
theorem test_halted_read : (regRead 0x02 haltedBase).observed = [1] := by decide
theorem test_halted_read_cmd : (regRead 0x03 haltedBase).core = haltedBase.core := by decide
theorem test_srst : coreOf (regWrite 0x06 0 haltedBase) = some CoreState.reset := by decide
theorem test_fault_line : faultLine haltedBase.core = true := by decide

-- The step: the first command after reset; nothing left to do.
theorem test_first_command : coreOf (step (State.reset.withFetchWord 32 0x10300008)) =
    some (CoreState.reset.setVec 3 ⟨8, 0⟩) := by decide
theorem test_idle : stateOf (step State.reset) = some State.reset := by decide

-- The assembler: R83's example, a comment, a value that does not fit, a pseudo-instruction, a host transaction.
theorem test_asm_vslice : assemble? "VSLICE V6, V3, 32, 64" = some (.vslice 6 3 32 64) := by decide
theorem test_asm_comment : assemble? "SUBKEY V7, 0xFFF ; the last" = some (.subkey 7 4095) := by decide
theorem test_asm_too_wide : assemble? "VZERO V0, 4096" = none := by decide
theorem test_asm_vtrunc : assemble? "VTRUNC V2, V1, 32" = some (Instr.vtrunc 2 1 32) := by decide
theorem test_asm_regwrite : hostLine? "RegWrite VDATA_0[1], 0x89ABCDEF" = some (.write 0x25 0x89ABCDEF) := by decide

-- Witnesses: for each obligation with hypotheses, a state and operands that meet all of them, each clause at a boundary.

theorem witness_DecodeOfEncode : Instr.WellFormed (.vslice 7 7 255 255) ∧ Instr.WellFormed (.rndd 4095) := by decide
theorem witness_EncodeOfDecode : decode 0x1577FFFF = .ok (.vslice 7 7 255 255) ∧ decode 0x31000FFF = .ok (.rnde 4095) := by decide

/-- `base` with one host input to come. -/
def given (t : HostInput) (s : State) : State := s.withPending [t]

theorem witness_IllegalWordFaults :
    (given (.write 0x03 0x41000001) base).core.fault = none ∧
      (given (.write 0x03 0x41000001) base).pending = .write 0x03 0x41000001 :: [] ∧
      decode 0x41000001 = .error .mustBeZero := by decide
theorem witness_RegisterFieldAboveSevenFaults :
    base.core.fault = none ∧ ¬ Instr.WellFormed (.vxor 8 0 1) ∧ ¬ Instr.WellFormed (.mblk 0 15) := by decide
theorem witness_StepRunsDecodedCommand :
    (given (.write 0x03 0x42420000) haltedBase).pending = .write 0x03 0x42420000 :: [] ∧
      decode 0x42420000 = .ok (.mblk 4 2) := by decide
theorem witness_StepRunsDecodedCommand_running :
    (given (.write 0x03 0x42420000) base).core.fault = none ∧
      (given (.write 0x03 0x42420000) base).pending = .write 0x03 0x42420000 :: [] ∧
      decode 0x42420000 = .ok (.mblk 4 2) := by decide
theorem witness_EveryInputCompletes :
    State.reset.pending = [] ∧ (given (.read 0x7F) base).pending = .read 0x7F :: [] ∧
      (given .hardReset base).pending ≠ .read 0 :: [] := by decide

theorem witness_VzeroWritesZeroVector :
    base.core.fault = none ∧ Instr.WellFormed (.vzero 7 128) ∧ (128 : Imm).toNat ≤ 128 ∧
      Instr.WellFormed (.vzero 7 129) ∧ 128 < (129 : Imm).toNat := by decide
theorem witness_VshrShiftsTowardHigherPositions :
    base.core.fault = none ∧ Instr.WellFormed (.vshr 1 1 31) ∧ 31 < (base.core.vec (regIdx 0)).len := by decide
theorem witness_VshlShiftsTowardLowerPositions :
    base.core.fault = none ∧ Instr.WellFormed (.vshl 1 0 31) ∧ 0 < (base.core.vec (regIdx 0)).len := by decide
theorem witness_VxorWritesBitwiseXor :
    base.core.fault = none ∧ Instr.WellFormed (.vxor 1 1 2) ∧
      (base.core.vec (regIdx 1)).len = (base.core.vec (regIdx 2)).len ∧
      Instr.WellFormed (.vxor 1 0 2) ∧ (base.core.vec (regIdx 0)).len ≠ (base.core.vec (regIdx 2)).len := by decide
/-- `base` with 96 bits in `V3` and 97 bits in `V4`, so that `V0` fills the one to 128 bits and the other to 129. -/
def wide : State := base.withCore ((base.core.setVec 3 ⟨96, 5⟩).setVec 4 ⟨97, 5⟩)
theorem witness_VcatWritesConcatenation :
    wide.core.fault = none ∧ Instr.WellFormed (.vcat 1 0 3) ∧
      (wide.core.vec (regIdx 0)).len + (wide.core.vec (regIdx 3)).len = 128 ∧
      Instr.WellFormed (.vcat 1 0 4) ∧ 128 < (wide.core.vec (regIdx 0)).len + (wide.core.vec (regIdx 4)).len := by decide
theorem witness_VsliceWritesSubvector :
    base.core.fault = none ∧ Instr.WellFormed (.vslice 0 0 32 32) ∧ Instr.WellFormed (.vslice 0 0 33 32) ∧
      Instr.WellFormed (.vslice 0 0 0 33) ∧ (32 : Bound).toNat ≤ (32 : Bound).toNat ∧
      (32 : Bound).toNat ≤ (base.core.vec (regIdx 0)).len ∧ (33 : Bound).toNat > (32 : Bound).toNat ∧
      (33 : Bound).toNat > (base.core.vec (regIdx 0)).len := by decide
theorem witness_LdkeyLoadsKey :
    base.core.fault = none ∧ Instr.WellFormed (.ldkey 1) ∧ base.core.vec (regIdx 1) = ⟨64, 0x0123456789ABCDEF⟩ ∧
      Instr.WellFormed (.ldkey 0) ∧ (base.core.vec (regIdx 0)).len ≠ 64 := by decide
theorem witness_SubkeyWritesRoundSubkey :
    base.core.fault = none ∧ Instr.WellFormed (.subkey 7 3) ∧ Instr.WellFormed (.subkey 7 4) := by decide
theorem witness_FrndWritesRoundFunction :
    base.core.fault = none ∧ Instr.WellFormed (.frnd 6 1 2) ∧
      (base.core.vec (regIdx 1)).len = (base.core.vec (regIdx 2)).len ∧
      Instr.WellFormed (.frnd 6 0 2) ∧ (base.core.vec (regIdx 0)).len ≠ (base.core.vec (regIdx 2)).len := by decide
theorem witness_KeyTailIsUnused :
    ∀ i, i < 32 → (0x0123456789ABCDEF : Block).getMsbD i = (0x0123456700000000 : Block).getMsbD i := by decide
theorem witness_BsplitLoadsHalves :
    base.core.fault = none ∧ Instr.WellFormed (.bsplit 2) ∧ base.core.vec (regIdx 2) = ⟨64, 0x0011223344556677⟩ ∧
      Instr.WellFormed (.bsplit 0) ∧ (base.core.vec (regIdx 0)).len ≠ 64 := by decide
theorem witness_RndeRunsOneEncryptionRound : base.core.fault = none := by decide
theorem witness_RnddRunsOneDecryptionRound : base.core.fault = none := by decide
theorem witness_BjoinWritesJoinedHalves : base.core.fault = none ∧ Instr.WellFormed (.bjoin 7) := by decide
theorem witness_EncEncryptsBlock :
    base.core.fault = none ∧ Instr.WellFormed (.enc 2 2) ∧ base.core.vec (regIdx 2) = ⟨64, 0x0011223344556677⟩ ∧
      Instr.WellFormed (.enc 2 0) ∧ (base.core.vec (regIdx 0)).len ≠ 64 := by decide
theorem witness_DecDecryptsBlock :
    base.core.fault = none ∧ Instr.WellFormed (.dec 2 2) ∧ base.core.vec (regIdx 2) = ⟨64, 0x0011223344556677⟩ ∧
      Instr.WellFormed (.dec 2 0) ∧ (base.core.vec (regIdx 0)).len ≠ 64 := by decide
theorem witness_CompositesEqualStepSequences :
    base.core.fault = none ∧ RegNum.valid 7 = true ∧ RegNum.valid 2 = true ∧
      base.core.vec (regIdx 2) = ⟨64, 0x0011223344556677⟩ ∧ base.core.nr.toNat = 2 := by decide
theorem witness_DecAfterEncRestoresBlock :
    base.core.fault = none ∧ RegNum.valid 5 = true ∧ RegNum.valid 4 = true ∧ RegNum.valid 2 = true ∧
      base.core.vec (regIdx 2) = ⟨64, 0x0011223344556677⟩ := by decide
theorem witness_LdivLoadsIv :
    base.core.fault = none ∧ Instr.WellFormed (.ldiv 1) ∧ base.core.vec (regIdx 1) = ⟨64, 0x0123456789ABCDEF⟩ ∧
      Instr.WellFormed (.ldiv 0) ∧ (base.core.vec (regIdx 0)).len ≠ 64 := by decide
theorem witness_MstartBeginsMessage : base.core.fault = none := by decide
theorem witness_MblkProcessesOneBlock (m : Mode) (d : Dir) :
    (chained m d).core.fault = none ∧ Instr.WellFormed (.mblk 4 2) ∧
      (chained m d).core.vec (regIdx 2) = ⟨64, 0x0011223344556677⟩ ∧ (chained m d).core.mode = m ∧
      (chained m d).core.dir = d ∧ (chained m d).core.nr ≠ 0 ∧
      Instr.WellFormed (.mblk 4 0) ∧ ((chained m d).core.vec (regIdx 0)).len ≠ 64 := by
  cases m <;> cases d <;> decide
theorem witness_MessageRoundTrip : ([] : List Byte).length % 8 = 0 ∧ (List.replicate 8 (0 : Byte)).length % 8 = 0 := by decide
theorem witness_ChangedBlockChangesAllLaterCiphertext :
    Mode.cfb ≠ .none ∧ Mode.cbc ≠ .none ∧ (0x0011223344556677 : Block) ≠ 0x0011223344556676 ∧
      ([0] : List Block).length < (encryptBlocks .cbc 0 0 1 ([0] ++ 1 :: [2])).length := by decide
/-- A CORE after reset to which the host is about to send a message of one block in mode CBC. -/
def messageState : State :=
  State.reset.withPending (messageInputs 0 1 2 3 .cbc .encrypt 255 0x0123456789ABCDEF 7 [0x0011223344556677] ++ [.read 0])
theorem witness_HostSequenceComputesMessage :
    messageState.core.fault = none ∧ (255 : BitVec 8) ≠ 0 ∧
      messageState.pending =
        messageInputs 0 1 2 3 .cbc .encrypt 255 0x0123456789ABCDEF 7 [0x0011223344556677] ++ [.read 0] := ⟨rfl, by decide, rfl⟩

/-- `base` with the longest vector in `V7`. -/
def longest : State := base.withCore (base.core.setVec 7 ⟨128, 1⟩)
theorem witness_VectorWindowReads :
    (given (.read 0x58) longest).core.Inv ∧ (longest.core.vec 7).len = 128 ∧ (longest.core.vec 6).len = 0 ∧
      (given (.read 0x58) longest).pending = .read (BitVec.ofNat 7 (0x20 + 8 * (7 : Fin 8).val)) :: [] ∧
      (given (.read 0x27) base).pending = .read (BitVec.ofNat 7 (0x24 + 8 * (0 : Fin 8).val + (3 : Fin 4).val)) :: [] ∧
      ¬ 32 * (3 : Fin 4).val < (base.core.vec 0).len ∧ 32 * (0 : Fin 4).val + 31 < (base.core.vec 0).len := by decide
theorem witness_VlenWriteResizes :
    (given (.write 0x20 128) base).core.fault = none ∧
      (given (.write 0x20 128) base).pending = .write (BitVec.ofNat 7 (0x20 + 8 * (0 : Fin 8).val)) 128 :: [] ∧
      (128 : Word).toNat ≤ 128 ∧ 128 < (129 : Word).toNat ∧
      (given (.write 0x58 129) base).pending = .write (BitVec.ofNat 7 (0x20 + 8 * (7 : Fin 8).val)) 129 :: [] := by decide
theorem witness_VdataWriteSetsPositions :
    (given (.write 0x2D 5) base).core.fault = none ∧
      (given (.write 0x2D 5) base).pending =
        .write (BitVec.ofNat 7 (0x24 + 8 * (1 : Fin 8).val + (1 : Fin 4).val)) 5 :: [] ∧
      63 < (base.core.vec 1).len := by decide
theorem witness_CtrlWriteAllOrNone :
    (given (.write 0x01 0x6FF) base).core.fault = none ∧
      (given (.write 0x01 0x6FF) base).pending = .write 0x01 0x6FF :: [] ∧
      ((0x6FF : Word).toNat / 2 ^ 11 = 0 ∧ (0x6FF : Word).toNat % 256 ≠ 0 ∧ (0x6FF : Word).toNat / 256 % 4 ≠ 3) ∧
      ((0x001 : Word).toNat / 2 ^ 11 = 0 ∧ (0x001 : Word).toNat % 256 ≠ 0 ∧ (0x001 : Word).toNat / 256 % 4 ≠ 3) ∧
      (0x801 : Word).toNat / 2 ^ 11 ≠ 0 ∧ (0x700 : Word).toNat % 256 = 0 ∧ (0x301 : Word).toNat / 256 % 4 = 3 := by decide
theorem witness_IllegalAccessFaults :
    (given (.read 0x03) base).core.fault = none ∧ (given (.read 0x03) base).pending = .read 0x03 :: [] ∧
      (portReg 0x03).access.readable = false ∧ (portReg 0x7F).access.readable = false ∧
      (given (.write 0x00 1) base).pending = .write 0x00 1 :: [] ∧
      (portReg 0x00).access.writable = false ∧ (portReg 0x07).access.writable = false := by decide
theorem witness_ReadsHaveNoSideEffects :
    (portReg 0x5F).access.readable = true ∧ (portReg 0x00).access.readable = true ∧
      (haltedBase.withPending [.read 0x5F, .read 0x5F]).pending = .read 0x5F :: .read 0x5F :: [] := by decide
theorem witness_ReadsHaveNoSideEffects_words (idx : PortIndex) (k : FaultKind) :
    (given (.read idx) (base.withCore (base.core.raise k 0))).pending = .read idx :: [] ∧
      (base.core.raise k 0).fault = some k ∧ base.core.fault = none := by
  cases k <;> exact ⟨rfl, rfl, rfl⟩
theorem witness_DataWritesAreIdempotent :
    (portReg 0x01).access = .readWrite ∧ (portReg 0x20).access = .readWrite ∧ (portReg 0x5F).access = .readWrite ∧
      (base.withPending [.write 0x5F 9, .write 0x5F 9]).pending = .write 0x5F 9 :: .write 0x5F 9 :: [] := by decide
theorem witness_LengthBeforeData : Vec.empty.len = 0 ∧ 0 ≤ 0 ∧ 12 ≤ 32 := by decide
-- R243's word, into V7, which is empty in `base`, at both ends of the lengths.
theorem witness_LengthBeforeData_steps :
    base.core.fault = none ∧ (base.core.vec 7).len = 0 ∧ (128 : Word).toNat ≤ 128 ∧ (0 : Word).toNat ≤ 128 ∧
      (base.withPending [.write 0x5C 0xDEADBEEF, .write 0x58 128]).pending =
        .write (BitVec.ofNat 7 (0x24 + 8 * (7 : Fin 8).val + (0 : Fin 4).val)) 0xDEADBEEF ::
          .write (BitVec.ofNat 7 (0x20 + 8 * (7 : Fin 8).val)) 128 :: [] ∧
      (base.withPending [.write 0x58 32, .write 0x5F 5]).pending =
        .write (BitVec.ofNat 7 (0x20 + 8 * (7 : Fin 8).val)) 32 ::
          .write (BitVec.ofNat 7 (0x24 + 8 * (7 : Fin 8).val + (3 : Fin 4).val)) 5 :: [] := by decide
theorem witness_LengthBeforeData_lengths :
    base.core.fault = none ∧ (12 : Word).toNat ≤ (32 : Word).toNat ∧ (128 : Word).toNat ≤ (128 : Word).toNat ∧
      (128 : Word).toNat ≤ 128 ∧ (base.core.vec 0).len = 32 ∧
      (base.withPending [.write 0x20 12, .write 0x20 32]).pending =
        .write (BitVec.ofNat 7 (0x20 + 8 * (0 : Fin 8).val)) 12 ::
          .write (BitVec.ofNat 7 (0x20 + 8 * (0 : Fin 8).val)) 32 :: [] := by decide
theorem witness_BytesRoundTrip : 0 < [(0x41 : Byte), 0x42].length ∧ 1 < [(0x41 : Byte), 0x42].length ∧ 7 < 8 := by decide

theorem witness_ResetFromEveryState :
    (given (.write 0x06 0xFFFFFFFF) haltedBase).pending = .write 0x06 0xFFFFFFFF :: [] ∧
      (given .hardReset haltedBase).pending = .hardReset :: [] := by decide
theorem witness_HaltedCoreIsInert :
    ∃ t, step (given (.read 0x03) haltedBase) = .next t ∧ haltedBase.core.fault ≠ none ∧
      (∀ w rest, (given (.read 0x03) haltedBase).pending ≠ .write 0x06 w :: rest) ∧
      (∀ rest, (given (.read 0x03) haltedBase).pending ≠ .hardReset :: rest) ∧
      (portReg 0x03).access.readable = false ∧ readReg haltedBase.core (portReg 0x02) = some 1 :=
  ⟨_, rfl, by decide, by simp [given], by simp [given], by decide, by decide⟩
theorem witness_FaultsArePrecise :
    ∃ t, step (given (.read 0x07) base) = .next t ∧ (given (.read 0x07) base).core.fault = none ∧
      t.core.fault ≠ none ∧ (given (.read 0x07) base).pending = .read 0x07 :: [] :=
  ⟨_, rfl, by decide, by decide, by decide⟩
theorem witness_CommandFaultsAsTabulated :
    ∃ t u, exec (.vxor 2 0 1) base = .next t ∧ exec (.mblk 4 2) base = .next u ∧ base.core.fault = none ∧
      Instr.WellFormed (.vxor 2 0 1) ∧ Instr.WellFormed (.mblk 4 2) ∧
      operandFault (.vxor 2 0 1) base.core ≠ none ∧ operandFault (.mblk 4 2) base.core = none :=
  ⟨_, _, rfl, rfl, by decide, by decide, by decide, by decide, by decide⟩
/-- `base` with other bits in `V2`. -/
def base' : State := base.withCore (base.core.setVec 2 ⟨64, 1⟩)
theorem witness_FaultsIgnoreBitValues :
    ∃ t u, step (given (issue (.enc 3 2)) base) = .next t ∧ step (given (issue (.enc 3 2)) base') = .next u ∧
      (given (issue (.enc 3 2)) base).pending = (given (issue (.enc 3 2)) base').pending ∧
      base.core.sameLengths base'.core ∧ base ≠ base' :=
  ⟨_, _, rfl, rfl, rfl, ⟨by decide, by decide, by decide⟩, by decide⟩
theorem witness_StepKeepsInvariants :
    ∃ t, step (given (.write 0x20 128) base) = .next t ∧ (given (.write 0x20 128) base).core.Inv ∧ t ≠ base :=
  ⟨_, rfl, by decide, by decide⟩
theorem witness_StepKeepsFaultRecord :
    ∃ t, step (given (.write 0x20 129) base) = .next t ∧ (given (.write 0x20 129) base).core.faultRecordSound ∧
      t.core.fault = some .capacityExceeded := ⟨_, rfl, trivial, by decide⟩
/-- `base` with a nonzero `IV`. -/
def withIv : State := base.withCore (base.core.setIv 7)
theorem witness_OnlyNamedEventsWriteRegisters :
    ∃ a b c d e, step (given (issue (.ldkey 2)) withIv) = .next a ∧ a.core.key ≠ withIv.core.key ∧
      step (given (issue (.ldiv 2)) withIv) = .next b ∧ b.core.iv ≠ withIv.core.iv ∧
      step (given (issue .mstart) withIv) = .next c ∧ c.core.feed ≠ withIv.core.feed ∧
      step (given (issue (.mblk 3 2)) withIv) = .next d ∧ d.core.blkcnt ≠ withIv.core.blkcnt ∧
      step (given (.write 0x01 3) withIv) = .next e ∧ e.core.nr ≠ withIv.core.nr ∧
      issue .mstart ≠ .hardReset ∧ (∀ w, issue .mstart ≠ .write 0x06 w) :=
  ⟨_, _, _, _, _, rfl, by decide, rfl, by decide, rfl, by decide, rfl, by decide, rfl, by decide, by decide,
    fun w h => by injection h with h1 h2; revert h1; decide⟩

theorem witness_VectorCommandFrame :
    ∃ t u, exec (.vxor 3 1 2) base = .next t ∧ exec (.vxor 3 0 2) base = .next u ∧
      isVectorOnly (.vxor 3 1 2) = true ∧ destOf (.vxor 3 1 2) = some 3 ∧
      t.core.fault = none ∧ u.core.fault ≠ none :=
  ⟨_, _, rfl, rfl, rfl, rfl, by decide, by decide⟩
theorem witness_VectorCommandRegisterSpaceFrame :
    ∃ t, exec (.bjoin 3) base = .next t ∧ isVectorOnly (.bjoin 3) = true ∧ destOf (.bjoin 3) = some 3 ∧
      portReg 0x40 ≠ .status ∧ portReg 0x40 ≠ .faultInfo ∧ portReg 0x40 ≠ .vlen (regIdx 3) ∧
      ∀ j, portReg 0x40 ≠ .vdata (regIdx 3) j :=
  ⟨_, rfl, rfl, rfl, by decide, by decide, by decide, by decide⟩
theorem witness_CipherRegisterCommandFrame :
    ∃ t u, exec (.rnde 0) base = .next t ∧ exec (.ldkey 0) base = .next u ∧ destOf (.rnde 0) = none ∧
      destOf (.ldkey 0) = none ∧ t.core.fault = none ∧ u.core.fault ≠ none ∧
      (∀ va, Instr.rnde 0 ≠ .ldkey va) ∧ (∀ va, Instr.rnde 0 ≠ .ldiv va) ∧ Instr.rnde 0 ≠ .mstart ∧
      (∀ va, Instr.ldkey 0 ≠ .bsplit va) ∧ (∀ r, Instr.ldkey 0 ≠ .rnde r) ∧ ∀ r, Instr.ldkey 0 ≠ .rndd r :=
  ⟨_, _, rfl, rfl, rfl, rfl, by decide, by decide, by simp, by simp, by simp, by simp, by simp, by simp⟩
theorem witness_BlockCommandFrame :
    ∃ t u, exec (.enc 3 2) base = .next t ∧ exec (.mblk 3 2) base = .next u ∧
      Instr.enc 3 2 ≠ .mblk 3 2 ∧ base.core.mode = .none ∧ t.core.fault = none ∧ u.core.blkcnt = 1 :=
  ⟨_, _, rfl, rfl, by decide, rfl, by decide, by decide⟩

end Sys2Proof.Tests
end

section
/-! What each kind of host input leaves on the host's side (R9, R10), and the obligation that every input completes. -/

namespace Sys2Proof.Machine

open Sys2Proof

/-- A word written to `CMD` answers a next state, command or not, and reaches only CORE's own state (R60, R88). -/
theorem runWord_next (w : Word) (s : State) : ∃ c, runWord w s = .next (s.withCore c) := by
  rcases runWord_cases w s with ⟨i, _, hrun⟩ | ⟨_, _, hrun⟩
  · obtain ⟨c, hexec⟩ := exec_next i s
    exact ⟨c, hrun.trans hexec⟩
  · exact ⟨_, hrun⟩

/-- A `RegWrite` answers a next state at every index and returns no word to the host (R51, R53). -/
theorem regWrite_next (idx : PortIndex) (w : Word) (s : State) : ∃ c, regWrite idx w s = .next (s.withCore c) := by
  rcases regWrite_cases idx w s with
    ⟨_, h⟩ | ⟨_, _, h⟩ | ⟨_, _, h⟩ | ⟨_, _, h⟩ | ⟨_, _, _, h⟩ | ⟨_, _, _, _, h⟩ | ⟨_, _, h⟩
  case inr.inr.inl =>
    obtain ⟨c, hrun⟩ := runWord_next w s
    exact ⟨c, h.trans hrun⟩
  all_goals exact ⟨_, h⟩

/-- A `RegRead` returns exactly one word, the register's or 0 with the fault entry (R53, R62). -/
theorem regRead_eq_observe (idx : PortIndex) (s : State) : ∃ c w, regRead idx s = (s.withCore c).observe w := by
  rcases regRead_cases idx s with ⟨w, _, h⟩ | ⟨_, h⟩
  · exact ⟨s.core, w, h⟩
  · exact ⟨_, 0, h⟩

/-- An input that is no read completes and reaches only CORE's own state (R9, R240). -/
theorem transact_next_of_ne_read {t : HostInput} (ht : ∀ idx, t ≠ .read idx) (s : State) :
    ∃ c, transact t s = .next (s.withCore c) := by
  cases t with
  | read idx => exact absurd rfl (ht idx)
  | write idx w => exact regWrite_next idx w s
  | hardReset => exact ⟨_, rfl⟩

/-- Settles O8: the step takes the head of the pending list, and what is left is what that one transaction does to the
host's side: a read appends one word, any other input none. -/
theorem everyInputCompletes : Obligations.EveryInputCompletes := by
  intro s
  rcases hp : s.pending with _ | ⟨t, rest⟩
  case nil => exact ⟨s, step_nil s hp, hp, fun _ => rfl, by simp, fun _ => rfl⟩
  case cons =>
    rw [step_cons s hp]
    by_cases ht : ∃ idx, t = .read idx
    · obtain ⟨idx, rfl⟩ := ht
      obtain ⟨c, w, hread⟩ := regRead_eq_observe idx (s.withPending rest)
      exact ⟨_, congrArg Host.Outcome.next hread, rfl, by simp, fun _ _ _ => ⟨w, rfl⟩,
        fun hne => absurd rfl (hne idx rest)⟩
    · obtain ⟨c, hnext⟩ := transact_next_of_ne_read (not_exists.mp ht) (s.withPending rest)
      refine ⟨_, hnext, rfl, by simp, fun idx _ heq => ?_, fun _ => rfl⟩
      exact absurd ⟨idx, (List.cons.inj heq).1⟩ ht

end Sys2Proof.Machine
end

section
/-! R81, R84: the fields a row does not use are zero in a legal word, so the word is the one the encoder writes. -/

namespace Sys2Proof

/-- R83, R84: a field that a row's mask covers whole is zero in every word of the row. -/
theorem unused_fields_eq_zero {w : Word} {op : Opcode} (hm : w &&& op.mask = op.pattern) :
    (vdField op.mask = BitVec.allOnes 4 → vdField w = 0) ∧ (vaField op.mask = BitVec.allOnes 4 → vaField w = 0) ∧
      (vbField op.mask = BitVec.allOnes 4 → vbField w = 0) ∧
      (immField op.mask = BitVec.allOnes 12 → immField w = 0) := by
  rw [← layout_fields w, ← layout_fields op.mask, layout_and, pattern_eq_layout] at hm
  obtain ⟨_, hvd, hva, hvb, himm⟩ := layout_inj hm
  refine ⟨fun h => ?_, fun h => ?_, fun h => ?_, fun h => ?_⟩
  · rwa [h, BitVec.and_allOnes] at hvd
  · rwa [h, BitVec.and_allOnes] at hva
  · rwa [h, BitVec.and_allOnes] at hvb
  · rwa [h, BitVec.and_allOnes] at himm

/-- R81, R83: the operands of a row, read from a word of that row, encode to the word again. -/
theorem encode_operands {w : Word} {op : Opcode} (hb : op.byte = opField w) (hm : w &&& op.mask = op.pattern) :
    encode (op.operands w) = w := by
  obtain ⟨hvd, hva, hvb, himm⟩ := unused_fields_eq_zero hm
  have hw : layout op.byte (vdField w) (vaField w) (vbField w) (immField w) = w := by rw [hb, layout_fields]
  have hs : layoutS op.byte (vdField w) (vaField w) (startField w) (endField w) = w := by rw [hb, layoutS_fields]
  cases op
  case vslice => exact hs
  all_goals refine Eq.trans ?_ hw
  case vzero | subkey => rw [hva rfl, hvb rfl]; rfl
  case vshr | vshl => rw [hvb rfl]; rfl
  case vxor | vcat | frnd => rw [himm rfl]; rfl
  case ldkey | bsplit | ldiv => rw [hvd rfl, hvb rfl, himm rfl]; rfl
  case rnde | rndd => rw [hvd rfl, hva rfl, hvb rfl]; rfl
  case bjoin => rw [hva rfl, hvb rfl, himm rfl]; rfl
  case enc | dec | mblk => rw [hvb rfl, himm rfl]; rfl
  case mstart => rw [hvd rfl, hva rfl, hvb rfl, himm rfl]; rfl

/-- R87: a word that decodes is the word of its instruction. -/
theorem encode_of_decode {w : Word} {i : Instr} (h : decode w = .ok i) : encode i = w := by
  obtain ⟨op, hb, hm, rfl⟩ := decode_ok h
  exact encode_operands hb hm

end Sys2Proof
end

section
/-! What a completed command leaves in CORE's state (R20, column `written by`), for all 18 commands at once. -/

namespace Sys2Proof.Machine

open Sys2Proof

/-- A mapped check that passes is the map of the value that passed. -/
theorem exceptMap_eq_ok {α β : Type} {x : Except FaultKind α} {f : α → β} {y : β} (h : x.map f = .ok y) :
    ∃ a, x = .ok a ∧ y = f a := by
  cases x with
  | error k => cases h
  | ok a => cases h; exact ⟨a, rfl, rfl⟩

/-- R111, R115: a result that passes the capacity check is within it. -/
theorem len_le_of_checkCapacity {x v : Vec} (h : checkCapacity x = .ok v) : v.len ≤ 128 := by
  rcases checkCapacity_cases x with ⟨hlen, hok⟩ | ⟨_, herr⟩
  · cases hok.symm.trans h
    exact hlen
  · cases herr.symm.trans h

/-- R104: an exclusive or has the length of its operands. -/
theorem len_of_xor {a b v : Vec} (h : a.xor b = .ok v) : v.len = a.len := by
  rcases Vec.xor_cases a b with ⟨_, x, hok, hlen, _⟩ | ⟨_, herr⟩
  · cases hok.symm.trans h
    exact hlen
  · cases herr.symm.trans h

/-- R130: F's result has the length of its operands. -/
theorem len_of_vecRoundF {a b v : Vec} (h : vecRoundF a b = .ok v) : v.len = a.len := by
  rcases vecRoundF_cases a b with ⟨_, x, hok, hlen⟩ | ⟨_, herr⟩
  · cases hok.symm.trans h
    exact hlen
  · cases herr.symm.trans h

/-- R106: a slice is no longer than its source. -/
theorem len_le_of_slice {a v : Vec} {start stop : Nat} (h : a.slice start stop = .ok v) : v.len ≤ a.len := by
  rcases Vec.slice_cases a start stop with ⟨_, hstop, x, hok, hlen, _⟩ | ⟨_, herr⟩
  · cases hok.symm.trans h
    omega
  · cases herr.symm.trans h

/-- The registers each completed command writes in a CORE state `c`, and what it leaves. A vector register's new value
is within `VMAX` where the sources are. -/
inductive Written (c : CoreState) : Instr → CoreState → Prop where
  /-- R111 to R116, R134, R135, R162. -/
  | vec {i : Instr} {vd : RegNum} {x : Vec} (hdest : destOf i = some vd) (honly : isVectorOnly i = true)
      (hlen : (∀ j, (c.vec j).len ≤ 128) → x.len ≤ 128) : Written c i (writeVd c vd x)
  /-- R133. -/
  | ldkey (va : RegNum) (k : Block) : Written c (.ldkey va) (c.setKey k)
  /-- R159. -/
  | bsplit (va : RegNum) (p : Half × Half) : Written c (.bsplit va) (c.setHalves p)
  /-- R160. -/
  | rnde (r : Imm) (p : Half × Half) : Written c (.rnde r) (c.setHalves p)
  /-- R161. -/
  | rndd (r : Imm) (p : Half × Half) : Written c (.rndd r) (c.setHalves p)
  /-- R163. -/
  | enc (vd va : RegNum) (p : Half × Half) : Written c (.enc vd va) (storePair c vd p)
  /-- R164. -/
  | dec (vd va : RegNum) (p : Half × Half) : Written c (.dec vd va) (storePair c vd p)
  /-- R190. -/
  | ldiv (va : RegNum) (x : Block) : Written c (.ldiv va) (c.setIv x)
  /-- R191. -/
  | mstart : Written c .mstart ((c.setFeed c.iv).setBlkcnt 0)
  /-- R192. -/
  | mblk (vd va : RegNum) (x : Block) :
      Written c (.mblk vd va) (storeBlockStep c vd (chainBlock c.mode c.dir c.key c.nr.toNat x c.feed))

/-- A vector command whose result, when its check passes, is within capacity writes just its destination. -/
theorem written_of_storeVec {i : Instr} {c d : CoreState} {vd : RegNum} {x : Except FaultKind Vec}
    (h : storeVec c vd x = .ok d) (hdest : destOf i = some vd) (honly : isVectorOnly i = true)
    (hlen : ∀ v, x = .ok v → (∀ j, (c.vec j).len ≤ 128) → v.len ≤ 128) : Written c i d := by
  obtain ⟨v, hv, rfl⟩ := exceptMap_eq_ok h
  exact .vec hdest honly (hlen v hv)

/-- Each command that completes writes what its row of the inventory names (R20). -/
theorem bodyOf_written {i : Instr} {c d : CoreState} (h : bodyOf i c = .ok d) : Written c i d := by
  cases i <;> simp only [bodyOf] at h
  case vzero vd len => exact written_of_storeVec h rfl rfl fun _ hv _ => len_le_of_checkCapacity hv
  case vcat vd va vb => exact written_of_storeVec h rfl rfl fun _ hv _ => len_le_of_checkCapacity hv
  case vshr vd va n => exact written_of_storeVec h rfl rfl fun _ hv hc => by cases hv; exact hc (regIdx va)
  case vshl vd va n => exact written_of_storeVec h rfl rfl fun _ hv hc => by cases hv; exact hc (regIdx va)
  case vxor vd va vb =>
    exact written_of_storeVec h rfl rfl fun _ hv hc => (len_of_xor hv).trans_le (hc (regIdx va))
  case frnd vd va vb =>
    exact written_of_storeVec h rfl rfl fun _ hv hc => (len_of_vecRoundF hv).trans_le (hc (regIdx va))
  case vslice vd va start stop =>
    exact written_of_storeVec h rfl rfl fun _ hv hc => (len_le_of_slice hv).trans (hc (regIdx va))
  case subkey vd r => cases h; exact .vec rfl rfl fun _ => (by decide : 32 ≤ 128)
  case bjoin vd => cases h; exact .vec rfl rfl fun _ => (by decide : 64 ≤ 128)
  case rnde r => cases h; exact .rnde r _
  case rndd r => cases h; exact .rndd r _
  case mstart => cases h; exact .mstart
  case ldkey va => obtain ⟨k, _, rfl⟩ := exceptMap_eq_ok h; exact .ldkey va k
  case ldiv va => obtain ⟨x, _, rfl⟩ := exceptMap_eq_ok h; exact .ldiv va x
  case bsplit va => obtain ⟨b, _, rfl⟩ := exceptMap_eq_ok h; exact .bsplit va _
  case enc vd va => obtain ⟨b, _, rfl⟩ := exceptMap_eq_ok h; exact .enc vd va _
  case dec vd va => obtain ⟨b, _, rfl⟩ := exceptMap_eq_ok h; exact .dec vd va _
  case mblk vd va => obtain ⟨x, _, rfl⟩ := exceptMap_eq_ok h; exact .mblk vd va x

end Sys2Proof.Machine
end

section
/-! What one host input can do to CORE's state (R9), said once for every input, and the two statements of R33 and R22 to
R29 that follow from it. -/

namespace Sys2Proof.Machine

open Sys2Proof

/-- Everything one host input can leave of a CORE state `c`. -/
inductive Effect (c : CoreState) : HostInput → CoreState → Prop where
  /-- R62, R214: a read of a readable register, or an input while halted. -/
  | unchanged {t : HostInput} : Effect c t c
  /-- R212: fault entry. -/
  | raise {t : HostInput} (k : FaultKind) (info : Word) : Effect c t (c.raise k info)
  /-- R60: a legal command that completes. -/
  | command {w : Word} {i : Instr} {d : CoreState} (hdec : decode w = .ok i) (hd : Written c i d) :
      Effect c (.write cmdIdx w) d
  /-- R59: `RegWrite(CTRL, w)`. -/
  | ctrl {w : Word} (m : Mode) (dir : Dir) (hnr : w.extractLsb' 0 8 ≠ 0) :
      Effect c (.write ctrlIdx w) (c.setCtrl (w.extractLsb' 0 8) m dir)
  /-- R57: `RegWrite(VLEN_i, w)` within the capacity. -/
  | vlen {idx : PortIndex} {w : Word} {i : Fin 8} (hidx : portReg idx = .vlen i) (hw : w.toNat ≤ 128) :
      Effect c (.write idx w) (c.setVec i ((c.vec i).resize w.toNat))
  /-- R58: `RegWrite(VDATA_i[j], w)`. -/
  | vdata {idx : PortIndex} {i : Fin 8} {j : Fin 4} (hidx : portReg idx = .vdata i j) (w : Word) :
      Effect c (.write idx w) (c.setVec i ((c.vec i).setWord j.val w))
  /-- R61, R216. -/
  | softReset (w : Word) : Effect c (.write srstIdx w) .reset
  /-- R240. -/
  | hardReset : Effect c .hardReset .reset

/-- R52: one index names `CTRL`. -/
theorem portReg_eq_ctrl (idx : PortIndex) : portReg idx = .ctrl ↔ idx = ctrlIdx := by revert idx; decide

/-- R60, R88: a word issued as a command is legal and completes, or leaves fault entry at most. -/
theorem runWord_effect {w : Word} {s s' : State} (h : runWord w s = .next s') :
    Effect s.core (.write cmdIdx w) s'.core := by
  rcases runWord_cases w s with ⟨i, hdec, hrun⟩ | ⟨_, _, hrun⟩
  · rw [exec_eq_command] at hrun
    rcases command_cases s i (bodyOf i) with ⟨_, hc⟩ | ⟨_, _, d, hok, hc⟩ | ⟨_, _, k, _, hc⟩ | ⟨_, _, hc⟩ <;>
      cases (hrun.trans hc).symm.trans h
    · exact .unchanged
    · exact .command hdec (bodyOf_written hok)
    · exact .raise k _
    · exact .raise _ _
  · cases hrun.symm.trans h
    exact .raise _ _

/-- R57 to R61: what a `RegWrite` leaves. -/
theorem regWrite_effect {idx : PortIndex} {w : Word} {s s' : State} (h : regWrite idx w s = .next s') :
    Effect s.core (.write idx w) s'.core := by
  rcases regWrite_cases idx w s with
    ⟨hr, hw⟩ | ⟨_, _, hw⟩ | ⟨_, hr, hw⟩ | ⟨_, hr, hw⟩ | ⟨_, i, hr, hw⟩ | ⟨_, i, j, hr, hw⟩ | ⟨_, _, hw⟩
  case inr.inr.inl =>
    obtain rfl := (portReg_eq_cmd idx).mp hr
    exact runWord_effect (hw.symm.trans h)
  all_goals cases hw.symm.trans h
  · obtain rfl := (portReg_eq_srst idx).mp hr
    exact .softReset w
  · exact .unchanged
  · obtain rfl := (portReg_eq_ctrl idx).mp hr
    rcases writeCtrl_cases w s.core with ⟨m, _, _, hnr, hc⟩ | hc <;> rw [State.withCore_core, hc]
    · exact .ctrl m _ hnr
    · exact .raise _ _
  · rcases writeVlen_cases i w s.core with ⟨hlen, hc⟩ | ⟨_, hc⟩ <;> rw [State.withCore_core, hc]
    · exact .vlen hr hlen
    · exact .raise _ _
  · exact .vdata hr w
  · exact .raise _ _

/-- R53, R62: what a `RegRead` leaves. -/
theorem regRead_effect (idx : PortIndex) (s : State) : Effect s.core (.read idx) (regRead idx s).core := by
  rcases regRead_cases idx s with ⟨_, _, hr⟩ | ⟨_, hr⟩ <;> rw [hr]
  · exact .unchanged
  · exact .raise _ _

/-- R9: a step's whole effect on CORE is that of the input it takes. -/
theorem step_effect {s s' : State} {t : HostInput} {rest : List HostInput} (hp : s.pending = t :: rest)
    (h : step s = .next s') : Effect s.core t s'.core := by
  rw [step_cons s hp] at h
  cases t with
  | read idx =>
    cases h
    exact regRead_effect idx (s.withPending rest)
  | write idx w => exact regWrite_effect (s := s.withPending rest) h
  | hardReset =>
    cases h
    exact .hardReset

/-- R34: the reset state meets R33's invariants. -/
theorem inv_reset : CoreState.reset.Inv := by decide

section Invariants

variable {c d : CoreState} {i : Instr} {t : HostInput}

/-- R33 asks only for the vector lengths, `NR` and the fault registers. -/
theorem inv_of_frame (hc : c.Inv) (hvec : ∀ j, (d.vec j).len ≤ 128) (hnr : d.nr = c.nr) (hfault : d.fault = c.fault)
    (hinfo : d.faultInfo = c.faultInfo) : d.Inv := by
  obtain ⟨_, hpos, hzero⟩ := hc
  exact ⟨hvec, hnr ▸ hpos, by rwa [hfault, hinfo]⟩

/-- R21: a vector register replaced by a vector within capacity leaves all eight within it. -/
theorem setVec_len_le (hc : ∀ j, (c.vec j).len ≤ 128) (n : Fin 8) {x : Vec} (hx : x.len ≤ 128) (j : Fin 8) :
    ((c.setVec n x).vec j).len ≤ 128 := by
  by_cases hj : j = n
  · rwa [hj, CoreState.setVec_vec_same]
  · rw [CoreState.setVec_vec_ne c n x j hj]
    exact hc j

/-- R212, R214: after fault entry CORE is halted, so `FAULTINFO` is free, and nothing else moved. -/
theorem inv_raise (hc : c.Inv) (k : FaultKind) (info : Word) : (c.raise k info).Inv := by
  obtain ⟨hvec, hnr, _⟩ := hc
  refine ⟨by simpa using hvec, by simpa using hnr, fun hf => ?_⟩
  have hhalted := c.halted_raise k info
  rw [CoreState.halted_of_none hf] at hhalted
  cases hhalted

/-- R33: every command that completes keeps the vectors within capacity. -/
theorem Written.len_le (h : Written c i d) (hc : ∀ j, (c.vec j).len ≤ 128) : ∀ j, (d.vec j).len ≤ 128 := by
  cases h with
  | vec _ _ hlen => exact setVec_len_le hc _ (hlen hc)
  | enc vd _ p | dec vd _ p => exact setVec_len_le (c := c.setHalves p) hc (regIdx vd) (by decide : 64 ≤ 128)
  | mblk vd _ x => exact setVec_len_le hc (regIdx vd) (by decide : 64 ≤ 128)
  | ldkey | ldiv | bsplit | rnde | rndd | mstart => exact hc

/-- R26, R27: no command that completes writes `CTRL` or the fault registers. -/
theorem Written.ctrl_fault_eq (h : Written c i d) :
    d.nr = c.nr ∧ d.mode = c.mode ∧ d.dir = c.dir ∧ d.fault = c.fault ∧ d.faultInfo = c.faultInfo := by
  cases h <;> exact ⟨rfl, rfl, rfl, rfl, rfl⟩

/-- R33: every input keeps the invariants. -/
theorem Effect.keeps_inv (h : Effect c t d) (hc : c.Inv) : d.Inv := by
  have ⟨hvec, _, hinfo⟩ := hc
  cases h with
  | unchanged => exact hc
  | raise k info => exact inv_raise hc k info
  | command _ hd =>
    obtain ⟨hnr', _, _, hfault', hinfo'⟩ := hd.ctrl_fault_eq
    exact inv_of_frame hc (hd.len_le hvec) hnr' hfault' hinfo'
  | ctrl m dir hnr => exact ⟨hvec, hnr, hinfo⟩
  | vlen _ hw => exact inv_of_frame hc (setVec_len_le hvec _ hw) rfl rfl rfl
  | vdata => exact inv_of_frame hc (setVec_len_le hvec _ (hvec _)) rfl rfl rfl
  | softReset | hardReset => exact inv_reset

end Invariants

/-- Settles O53: R34's state has empty vectors, `NR = 2` and no fault. -/
theorem resetMeetsInvariants : Obligations.ResetMeetsInvariants :=
  ⟨inv_reset, trivial⟩

/-- Settles O54: with no input pending the state stays, and the effect of any input keeps the invariants. -/
theorem stepKeepsInvariants : Obligations.StepKeepsInvariants := by
  intro s t hinv hstep
  rcases hp : s.pending with _ | ⟨input, rest⟩
  · cases (step_nil s hp).symm.trans hstep
    exact hinv
  · exact (step_effect hp hstep).keeps_inv hinv

section NamedWriters

variable {c d : CoreState} {i : Instr} {t : HostInput}

/-- R22: `KEY` keeps its value over every command but `LDKEY`. -/
theorem Written.key_writer (h : Written c i d) (hne : d.key ≠ c.key) : ∃ va, i = .ldkey va := by
  cases h with
  | ldkey va => exact ⟨va, rfl⟩
  | _ => exact absurd rfl hne

/-- R23: only `LDIV` writes `IV`. -/
theorem Written.iv_writer (h : Written c i d) (hne : d.iv ≠ c.iv) : ∃ va, i = .ldiv va := by
  cases h with
  | ldiv va => exact ⟨va, rfl⟩
  | _ => exact absurd rfl hne

/-- R24, R29: only `MSTART` and `MBLK` write `FEED` and `BLKCNT`. -/
theorem Written.message_writer (h : Written c i d) (hne : d.feed ≠ c.feed ∨ d.blkcnt ≠ c.blkcnt) :
    i = .mstart ∨ ∃ vd va, i = .mblk vd va := by
  cases h with
  | mstart => exact .inl rfl
  | mblk vd va => exact .inr ⟨vd, va, rfl⟩
  | _ => exact absurd ⟨rfl, rfl⟩ (not_and_or.mpr hne)

end NamedWriters

/-- Settles O56: of the effects an input can have, only a completed command reaches `KEY`, `IV`, `FEED` and `BLKCNT`, and
its word is its instruction's; only a write of `CTRL` reaches `CTRL`. -/
theorem onlyNamedEventsWriteRegisters : Obligations.OnlyNamedEventsWriteRegisters := by
  intro s t input rest hp hstep hhard hsoft
  generalize s.core = c, t.core = d, step_effect hp hstep = heff
  cases heff with
  | hardReset => exact absurd rfl hhard
  | softReset w => exact absurd rfl (hsoft w)
  | unchanged | raise | vlen | vdata => simp
  | ctrl => exact ⟨by simp, by simp, by simp, fun _ => ⟨_, rfl⟩⟩
  | command hdec hd =>
    obtain rfl := encode_of_decode hdec
    obtain ⟨hnr, hmode, hdir, _, _⟩ := hd.ctrl_fault_eq
    refine ⟨fun hne => ?_, fun hne => ?_, fun hne => ?_, fun hne => absurd (by rw [hnr, hmode, hdir]) hne⟩
    · obtain ⟨va, rfl⟩ := hd.key_writer hne
      exact ⟨va, rfl⟩
    · obtain ⟨va, rfl⟩ := hd.iv_writer hne
      exact ⟨va, rfl⟩
    · rcases hd.message_writer hne with rfl | ⟨vd, va, rfl⟩
      · exact .inl rfl
      · exact .inr ⟨vd, va, rfl⟩

end Sys2Proof.Machine
end

section
/-! BitVectors position by position: a second resize or word write (R57, R58), and the conversion to and from bytes (R54)
with the obligation that the two directions undo each other. -/

namespace Sys2Proof

/-- R5: a position at and beyond the length is 0. -/
theorem Vec.pos_eq_ite (v : Vec) (p : Nat) : v.pos p = if p < v.len then v.pos p else false := by
  split
  · rfl
  · next h => exact v.pos_of_len_le (Nat.not_lt.mp h)

/-- R57: a vector already of the length keeps its positions. -/
theorem Vec.resize_resize (v : Vec) (n : Nat) : (v.resize n).resize n = v.resize n := by
  refine Vec.ext_pos rfl fun p hp => ?_
  rw [Vec.resize_pos]
  exact if_pos hp

/-- R58: positions that hold the word already keep it. -/
theorem Vec.setWord_setWord (v : Vec) (j : Nat) (w : Word) : (v.setWord j w).setWord j w = v.setWord j w := by
  refine Vec.ext_pos rfl fun p _ => ?_
  simp only [Vec.setWord_pos, Vec.setWord_len]
  split <;> rfl

/-- R54: bit `k` of byte `j`, counted from the most significant, is position `8j + k`, and 0 at and beyond the length. -/
theorem Vec.byteAt_pos (v : Vec) (j : Nat) {k : Nat} (hk : k < 8) : (v.byteAt j).getMsbD k = v.pos (8 * j + k) := by
  simp only [Vec.pos, Vec.byteAt, BitVec.getMsbD_eq_getLsbD]
  grind

@[simp] theorem Vec.toBytes_length (v : Vec) : v.toBytes.length = (v.len + 7) / 8 := by
  simp [Vec.toBytes]

theorem Vec.toBytes_getElem (v : Vec) (j : Nat) (hj : j < v.toBytes.length) : v.toBytes[j] = v.byteAt j := by
  simp [Vec.toBytes]

/-- R54: position `8j + k` of a vector is bit `k` of its byte `j`, the last byte's zeros included. -/
theorem Vec.toBytes_pos (v : Vec) {j k : Nat} (hj : j < (v.len + 7) / 8) (hk : k < 8) :
    (v.toBytes.getD j 0).getMsbD k = v.pos (8 * j + k) := by
  have hj' : j < v.toBytes.length := by rwa [v.toBytes_length]
  rw [List.getD_eq_getElem _ _ hj', v.toBytes_getElem, v.byteAt_pos j hk]

@[simp] theorem Vec.fromBytes_len (bs : List Byte) : (Vec.fromBytes bs).len = 8 * bs.length := by
  induction bs with
  | nil => rfl
  | cons b bs ih =>
    rw [Vec.fromBytes, Vec.concat_len, ih]
    show 8 + 8 * bs.length = 8 * (bs.length + 1)
    omega

/-- R54: byte 0 comes first, and of each byte its most significant bit. -/
theorem Vec.fromBytes_pos (bs : List Byte) {j k : Nat} (hj : j < bs.length) (hk : k < 8) :
    (Vec.fromBytes bs).pos (8 * j + k) = (bs.getD j 0).getMsbD k := by
  induction bs generalizing j with
  | nil => cases hj
  | cons b bs ih =>
    rw [Vec.fromBytes, Vec.concat_pos]
    cases j with
    | zero => simp [hk, Vec.pos]
    | succ j =>
      have hlong : ¬ 8 * (j + 1) + k < 8 := by omega
      have hrest : 8 * (j + 1) + k - 8 = 8 * j + k := by omega
      rw [if_neg hlong, hrest, ih (Nat.lt_of_succ_lt_succ hj), List.getD_cons_succ]

/-- R54: a vector made from bytes has exactly those bytes, none of them filled. -/
theorem Vec.toBytes_fromBytes (bs : List Byte) : (Vec.fromBytes bs).toBytes = bs := by
  have hlen : (Vec.fromBytes bs).toBytes.length = bs.length := by
    rw [Vec.toBytes_length, Vec.fromBytes_len]
    omega
  refine List.ext_getElem hlen fun j hj hj' => BitVec.eq_of_getMsbD_eq fun k hk => ?_
  rw [Vec.toBytes_getElem, Vec.byteAt_pos _ j hk, Vec.fromBytes_pos bs hj' hk, List.getD_eq_getElem _ _ hj']

/-- Settles O46: length and positions of `FromBytes` by induction on the bytes, those of `ToBytes` byte by byte, and the
round trip because both name position `8j + k`. -/
theorem bytesRoundTrip : Obligations.BytesRoundTrip :=
  ⟨fun bs => ⟨Vec.fromBytes_len bs, Vec.toBytes_fromBytes bs, fun _ _ => Vec.fromBytes_pos bs⟩,
    fun v => ⟨v.toBytes_length, fun _ _ => v.toBytes_pos⟩⟩

end Sys2Proof
end

section
/-! The register map as numbers, and the rules of the port: one lemma for what a read and a write of each kind of register
do (R53, R57 to R62, R68). The obligations on reads, on illegal accesses, on halted CORE and on reset follow. -/

namespace Sys2Proof.Machine

open Sys2Proof

/-- R52: the index of `VLEN_i`, written out. -/
theorem portReg_vlen_window (i : Fin 8) : portReg (BitVec.ofNat 7 (0x20 + 8 * i.val)) = .vlen i := portReg_vlenIdx i

/-- R52: the index of `VDATA_i[j]`, written out. -/
theorem portReg_vdata_window (i : Fin 8) (j : Fin 4) :
    portReg (BitVec.ofNat 7 (0x24 + 8 * i.val + j.val)) = .vdata i j := portReg_vdataIdx i j

/-- Settles O42: the map has 128 indices, and each is looked up. -/
theorem registerMapAccess : Obligations.RegisterMapAccess := by
  unfold Obligations.RegisterMapAccess
  decide

/-- R28: the record of a read. -/
theorem accessInfo_read (idx : PortIndex) : accessInfo false idx = BitVec.ofNat 32 (0xFF000000 + idx.toNat) := by
  revert idx
  decide

/-- R28: the record of a write. -/
theorem accessInfo_write (idx : PortIndex) : accessInfo true idx = BitVec.ofNat 32 (0xFF000000 + 0x80 + idx.toNat) := by
  revert idx
  decide

/-- R57: the record of a write of `VLEN_i`. -/
theorem accessInfo_vlenIdx (i : Fin 8) :
    accessInfo true (vlenIdx i) = BitVec.ofNat 32 (0xFF000000 + 0x80 + 0x20 + 8 * i.val) := by
  revert i
  decide

section Access

variable {c : CoreState} {r : PortReg} {idx : PortIndex} {s : State} {w : Word} {rest : List HostInput}

/-- R52: a readable register reads as a word. -/
theorem readReg_of_readable (h : r.access.readable = true) : ∃ w, readReg c r = some w :=
  Option.isSome_iff_exists.mp ((readReg_isSome c r).trans h)

/-- R53: a write-only register or a reserved index reads as none. -/
theorem readReg_of_not_readable (h : r.access.readable = false) : readReg c r = none :=
  Option.isNone_iff_eq_none.mp (Option.isSome_eq_false_iff.mp ((readReg_isSome c r).trans h))

/-- R62: a `RegRead` of a readable register returns its word and does nothing else. -/
theorem regRead_of_readReg (h : readReg s.core (portReg idx) = some w) : regRead idx s = s.observe w := by
  simp [regRead, h]

/-- R53: a `RegRead` of any other index returns 0 and raises `IllegalOperation`. -/
theorem regRead_of_not_readable (h : (portReg idx).access.readable = false) :
    regRead idx s = (s.withCore (s.core.raise .illegalOperation (accessInfo false idx))).observe 0 := by
  simp [regRead, readReg_of_not_readable h]

/-- R68, R214: a `RegRead` while halted, of whatever index, leaves CORE as it is. -/
theorem regRead_core_of_halted (h : s.core.halted = true) : (regRead idx s).core = s.core := by
  rcases regRead_cases idx s with ⟨w, _, hr⟩ | ⟨_, hr⟩ <;> rw [hr]
  · rfl
  · exact s.core.raise_halted _ _ h

/-- R61, R216: `SRST` acts at all times. -/
theorem regWrite_srst (hr : portReg idx = .srst) : regWrite idx w s = .next (s.withCore .reset) := by
  simp [regWrite, hr]

/-- R68: every other write is ignored while halted. -/
theorem regWrite_of_halted (h : s.core.halted = true) (hr : portReg idx ≠ .srst) : regWrite idx w s = .next s := by
  rcases regWrite_cases idx w s with ⟨hsrst, _⟩ | ⟨_, _, hw⟩ | hrun
  · exact absurd hsrst hr
  · exact hw
  · simp [h] at hrun

/-- R60: a word written to `CMD` while CORE runs is executed. -/
theorem regWrite_cmd (h : s.core.halted = false) (hr : portReg idx = .cmd) : regWrite idx w s = runWord w s := by
  simp [regWrite, hr, h]

/-- R53: a write of a read-only register or a reserved index raises `IllegalOperation`. -/
theorem regWrite_of_not_writable (h : s.core.halted = false) (hr : (portReg idx).access.writable = false) :
    regWrite idx w s = .next (s.withCore (s.core.raise .illegalOperation (accessInfo true idx))) := by
  rcases regWrite_cases idx w s with
    ⟨he, _⟩ | ⟨_, hh, _⟩ | ⟨_, he, _⟩ | ⟨_, he, _⟩ | ⟨_, i, he, _⟩ | ⟨_, i, j, he, _⟩ | ⟨_, _, hw⟩
  case inr.inl => simp [h] at hh
  case inr.inr.inr.inr.inr.inr => exact hw
  all_goals simp [he, PortReg.access, Access.writable] at hr

/-- R9: a step whose input is a `RegWrite`. -/
theorem step_write (hp : s.pending = .write idx w :: rest) : step s = regWrite idx w (s.withPending rest) :=
  step_cons s hp

/-- R9: a step whose input is a `RegRead`. -/
theorem step_regRead (hp : s.pending = .read idx :: rest) : step s = .next (regRead idx (s.withPending rest)) :=
  step_cons s hp

end Access

/-- R60: a legal command word is its instruction's execution. -/
theorem runWord_of_decode {w : Word} {i : Instr} (h : decode w = .ok i) (s : State) : runWord w s = exec i s := by
  simp [runWord, h]

/-- R214: no command executes while CORE is halted. -/
theorem exec_of_halted (i : Instr) {s : State} (h : s.core.halted = true) : exec i s = .next s := by
  rw [exec_eq_command, command_halted s i _ h]

/-- Settles O7: running, the port executes the decoded word; halted, the port ignores the write and `exec` changes
nothing. -/
theorem stepRunsDecodedCommand : Obligations.StepRunsDecodedCommand := by
  intro s w i rest hp hdec
  rw [step_write hp]
  show _ = exec i (s.withPending rest)
  generalize s.withPending rest = u
  cases h : u.core.halted with
  | false => exact (regWrite_cmd h portReg_cmdIdx).trans (runWord_of_decode hdec u)
  | true => exact (regWrite_of_halted (idx := cmdIdx) h (by decide)).trans (exec_of_halted i h).symm

/-- Settles O41: neither access reaches a register, and a running CORE takes the fault entry with its record. -/
theorem illegalAccessFaults : Obligations.IllegalAccessFaults := by
  intro s idx rest hrun
  have hhalted : (s.withPending rest).core.halted = false := CoreState.halted_of_none hrun
  refine ⟨fun hp hr => ?_, fun w hp hr => ?_⟩
  · rw [step_regRead hp, regRead_of_not_readable hr, CoreState.raise_running _ _ _ hhalted, accessInfo_read]
    rfl
  · rw [step_write hp, regWrite_of_not_writable hhalted hr, CoreState.raise_running _ _ _ hhalted, accessInfo_write]
    rfl

/-- Settles O49: of the inputs left, a read changes nothing in a halted CORE and a write is ignored. -/
theorem haltedCoreIsInert : Obligations.HaltedCoreIsInert := by
  intro s t hfault hstep hsoft hhard
  have hhalted : s.core.halted = true := Option.isSome_iff_ne_none.mpr hfault
  rcases hp : s.pending with _ | ⟨_ | ⟨idx, w⟩ | _, rest⟩
  case nil =>
    cases (step_nil s hp).symm.trans hstep
    exact ⟨rfl, by simp⟩
  case cons.read idx =>
    cases (step_regRead hp).symm.trans hstep
    refine ⟨regRead_core_of_halted (s := s.withPending rest) hhalted, fun idx' rest' heq => ?_⟩
    obtain ⟨⟨⟩, rfl⟩ := List.cons.inj heq
    exact ⟨fun w hw => by rw [regRead_of_readReg (s := s.withPending rest) hw]; rfl,
      fun hr => by rw [regRead_of_not_readable hr]; rfl⟩
  case cons.write =>
    have hidx : portReg idx ≠ .srst := fun he => hsoft w rest (by rw [hp, (portReg_eq_srst idx).mp he]; rfl)
    cases ((step_write hp).trans (regWrite_of_halted (s := s.withPending rest) hhalted hidx)).symm.trans hstep
    exact ⟨rfl, by simp⟩
  case cons.hardReset => exact absurd hp (hhard rest)

/-- Settles O48: `SRST` is not masked by the halted state, and hard reset does the same. -/
theorem resetFromEveryState : Obligations.ResetFromEveryState := by
  intro s w rest hp
  refine ⟨?_, rfl⟩
  rcases hp with hp | hp
  · exact (step_write hp).trans (regWrite_srst portReg_srstIdx)
  · exact step_cons s hp

/-- The number a concatenation spells (R6). -/
theorem toNat_append_eq_mul_add {m n : Nat} (x : BitVec m) (y : BitVec n) :
    (x ++ y).toNat = x.toNat * 2 ^ n + y.toNat := by
  rw [BitVec.toNat_append, ← Nat.shiftLeft_add_eq_or_of_lt y.isLt, Nat.shiftLeft_eq]

/-- R26: the number `CTRL` reads as. -/
theorem ctrlWord_toNat (c : CoreState) :
    (ctrlWord c).toNat = c.nr.toNat + 256 * c.mode.field.toNat + 1024 * c.dir.field.toNat := by
  simp only [ctrlWord, ctrlWordOf, toNat_append_eq_mul_add, BitVec.toNat_ofNat]
  omega

/-- Settles O43: a read leaves CORE alone, so the next read finds the same word; each word is `readReg` of its index. -/
theorem readsHaveNoSideEffects : Obligations.ReadsHaveNoSideEffects := by
  refine ⟨fun s idx rest hr hp => ?_, fun s idx rest hp => ?_⟩
  · obtain ⟨w, hw⟩ := readReg_of_readable (c := s.core) hr
    have hagain := step_read (s := { s with pending := .read idx :: rest, observed := s.observed ++ [w] }) rfl hw
    exact ⟨w, _, step_read hp hw, rfl, rfl, by simpa using hagain⟩
  · have reads {r : PortIndex} (w : Word) (hidx : idx = r) (hw : readReg s.core (portReg r) = some w) :
        step s = .next { s with pending := rest, observed := s.observed ++ [w] } := step_read hp (hidx ▸ hw)
    refine ⟨fun h => reads _ h rfl, fun h => ⟨ctrlWord s.core, reads _ h rfl, ?_⟩, fun h => reads _ h ?_,
      fun h => reads _ h rfl, fun h => reads _ h rfl,
      fun h => reads _ h (congrArg some (word_zero_eq _)), fun h => reads _ h (congrArg some (word_one_eq _)),
      fun h => reads _ h (congrArg some (word_zero_eq _)), fun h => reads _ h (congrArg some (word_one_eq _)),
      fun h => reads _ h (congrArg some (word_zero_eq _)), fun h => reads _ h (congrArg some (word_one_eq _)),
      fun h => reads _ h rfl, fun h => reads _ h rfl⟩
    · rw [ctrlWord_toNat]
      cases s.core.mode <;> cases s.core.dir <;> rfl
    · show some (statusWord s.core) = _
      rw [statusWord]
      rcases s.core.fault with _ | _ | _ | _ | _ | _ <;> rfl

/-- Settles O37: the length fits the word by R33's capacity, and a data word holds the positions of R56. -/
theorem vectorWindowReads : Obligations.VectorWindowReads := by
  intro s i j rest
  refine ⟨fun hinv hp => ⟨BitVec.ofNat 32 (s.core.vec i).len, ?_, step_read hp ?_⟩,
    fun hp => ⟨(s.core.vec i).word j.val, step_read hp ?_, fun k hk => ?_⟩⟩
  · obtain ⟨hlen, _, _⟩ := hinv
    have hfits : (s.core.vec i).len < 2 ^ 32 := (hlen i).trans_lt (by decide)
    rw [BitVec.toNat_ofNat, Nat.mod_eq_of_lt hfits]
  · rw [portReg_vlen_window, readReg]
  · rw [portReg_vdata_window, readReg]
  · rw [Vec.word_pos _ (h := hk)]
    exact Vec.pos_eq_ite _ _

end Sys2Proof.Machine
end

section
/-! The read-write registers `CTRL`, `VLEN_i` and `VDATA_i[j]` (R57 to R59, R62): one rule for a write of any of them, what
each leaves, and that the same write again leaves no more. -/

namespace Sys2Proof.Machine

open Sys2Proof

/-- R57 to R59: what a running CORE makes of a word written to a read-write register. -/
def writeData (r : PortReg) (w : Word) (c : CoreState) : CoreState :=
  match r with
  | .ctrl => writeCtrl w c
  | .vlen i => writeVlen i w c
  | .vdata i j => writeVdata i j w c
  | _ => c

/-- R57 to R59: `RegWrite` of a read-write register while CORE runs. -/
theorem regWrite_of_readWrite {idx : PortIndex} {s : State} (w : Word) (h : s.core.halted = false)
    (hr : (portReg idx).access = .readWrite) :
    regWrite idx w s = .next (s.withCore (writeData (portReg idx) w s.core)) := by
  rcases regWrite_cases idx w s with
    ⟨he, _⟩ | ⟨_, hh, _⟩ | ⟨_, he, _⟩ | ⟨_, he, hw⟩ | ⟨_, i, he, hw⟩ | ⟨_, i, j, he, hw⟩ | ⟨_, hro, _⟩
  case inr.inr.inr.inl | inr.inr.inr.inr.inl | inr.inr.inr.inr.inr.inl => rw [hw, he]; rfl
  case inl | inr.inr.inl => simp [he, PortReg.access] at hr
  case inr.inl => simp [h] at hh
  case inr.inr.inr.inr.inr.inr => simp [hr, Access.writable] at hro

/-- R57 to R59: a step that writes a read-write register of a running CORE. -/
theorem step_writeData {s : State} {idx : PortIndex} {r : PortReg} {w : Word} {rest : List HostInput}
    (hp : s.pending = .write idx w :: rest) (hrun : s.core.fault = none) (hidx : portReg idx = r)
    (hr : r.access = .readWrite) : step s = .next { s with core := writeData r w s.core, pending := rest } := by
  subst hidx
  exact (step_write hp).trans (regWrite_of_readWrite (s := s.withPending rest) w (CoreState.halted_of_none hrun) hr)

/-- R26: every field value but 3 names a mode. -/
theorem modeOf?_cases (b : BitVec 2) :
    (b ≠ 3 ∧ ∃ m : Mode, modeOf? b = some m ∧ m.field = b) ∨ (b = 3 ∧ modeOf? b = none) := by
  have h : b = 0 ∨ b = 1 ∨ b = 2 ∨ b = 3 := by
    revert b
    decide
  rcases h with rfl | rfl | rfl | rfl
  · exact .inl ⟨by decide, .none, rfl, rfl⟩
  · exact .inl ⟨by decide, .cbc, rfl, rfl⟩
  · exact .inl ⟨by decide, .cfb, rfl, rfl⟩
  · exact .inr ⟨rfl, rfl⟩

/-- R59: the word sets no reserved bit, asks for at least one round and names a mode. -/
def ctrlLegal (w : Word) : Prop := w.toNat / 2 ^ 11 = 0 ∧ w.toNat % 256 ≠ 0 ∧ w.toNat / 256 % 4 ≠ 3

section CtrlFields

variable (w : Word)

/-- R26: the field `MODE`, bits 9..8. -/
theorem modeField_toNat : (w.extractLsb' 8 2).toNat = w.toNat / 256 % 4 := by
  rw [BitVec.extractLsb'_toNat, Nat.shiftRight_eq_div_pow]

/-- R59: the reserved bits, 31..11. -/
theorem reservedField_eq_zero : w.extractLsb' 11 21 = 0 ↔ w.toNat / 2 ^ 11 = 0 := by
  have hlt : w.toNat / 2 ^ 11 < 2 ^ 21 := by have := w.isLt; omega
  rw [← BitVec.toNat_inj, BitVec.extractLsb'_toNat, Nat.shiftRight_eq_div_pow, Nat.mod_eq_of_lt hlt]
  rfl

/-- R26: the field `NR`, bits 7..0. -/
theorem nrField_eq_zero : w.extractLsb' 0 8 = 0 ↔ w.toNat % 256 = 0 := by
  rw [← BitVec.toNat_inj, BitVec.extractLsb'_toNat]
  rfl

/-- R26: the field `DIR`, bit 10. -/
theorem dirOf_dirField : dirOf (w.extractLsb' 10 1) = if w.toNat / 1024 % 2 = 0 then .encrypt else .decrypt := by
  have h : w.extractLsb' 10 1 = 0 ↔ w.toNat / 1024 % 2 = 0 := by
    rw [← BitVec.toNat_inj, BitVec.extractLsb'_toNat, Nat.shiftRight_eq_div_pow]
    rfl
  simp only [dirOf, h]

variable {w}

/-- R59: a legal word sets the three fields, whatever the state. -/
theorem writeCtrl_of_legal (h : ctrlLegal w) : ∃ m : Mode, m.field.toNat = w.toNat / 256 % 4 ∧
    ∀ c, writeCtrl w c =
      c.setCtrl (BitVec.ofNat 8 w.toNat) m (if w.toNat / 1024 % 2 = 0 then .encrypt else .decrypt) := by
  obtain ⟨hres, hnr, hmode⟩ := h
  rcases modeOf?_cases (w.extractLsb' 8 2) with ⟨_, m, hm, hfield⟩ | ⟨he, _⟩
  · refine ⟨m, by rw [hfield, modeField_toNat], fun c => ?_⟩
    have hok : ¬ (w.extractLsb' 11 21 ≠ 0 ∨ w.extractLsb' 0 8 = 0) := by
      rw [ne_eq, reservedField_eq_zero, nrField_eq_zero]
      tauto
    rw [writeCtrl, hm]
    simp only [if_neg hok, dirOf_dirField]
    rfl
  · exact absurd (by rw [← modeField_toNat, he]; rfl) hmode

/-- R59: any other word raises `IllegalOperation`, whatever the state. -/
theorem writeCtrl_of_not_legal (h : ¬ ctrlLegal w) (c : CoreState) :
    writeCtrl w c = c.raise .illegalOperation (accessInfo true ctrlIdx) := by
  rcases writeCtrl_cases w c with ⟨m, hm, hres, hnr, _⟩ | hraise
  · refine absurd ⟨(reservedField_eq_zero w).mp hres, fun h0 => hnr ((nrField_eq_zero w).mpr h0), ?_⟩ h
    rcases modeOf?_cases (w.extractLsb' 8 2) with ⟨hne, _⟩ | ⟨_, hnone⟩
    · rw [← modeField_toNat]
      exact fun he => hne (BitVec.eq_of_toNat_eq he)
    · cases hm.symm.trans hnone
  · exact hraise

end CtrlFields

/-- R212, R214: fault entry happens once. -/
theorem CoreState.raise_raise (c : CoreState) (k : FaultKind) (info : Word) :
    (c.raise k info).raise k info = c.raise k info :=
  CoreState.raise_halted _ _ _ (c.halted_raise k info)

/-- R21: of two writes of one vector register the second counts. -/
theorem CoreState.setVec_setVec (c : CoreState) (i : Fin 8) (x y : Vec) : (c.setVec i x).setVec i y = c.setVec i y := by
  simp [CoreState.setVec]

/-- R57: a length within the capacity resizes the vector, whatever the state. -/
theorem writeVlen_of_le {w : Word} (h : w.toNat ≤ 128) (i : Fin 8) (c : CoreState) :
    writeVlen i w c = c.setVec i ((c.vec i).resize w.toNat) := if_neg (Nat.not_lt.mpr h)

/-- R57: a greater one raises `CapacityExceeded`. -/
theorem writeVlen_of_gt {w : Word} (h : 128 < w.toNat) (i : Fin 8) (c : CoreState) :
    writeVlen i w c = c.raise .capacityExceeded (accessInfo true (vlenIdx i)) := if_pos h

/-- R62: a second write of the same word to a read-write register leaves what the first left. -/
theorem writeData_writeData (r : PortReg) (w : Word) (c : CoreState) :
    writeData r w (writeData r w c) = writeData r w c := by
  cases r <;> simp only [writeData]
  case ctrl =>
    by_cases h : ctrlLegal w
    · obtain ⟨m, _, hset⟩ := writeCtrl_of_legal h
      simp only [hset]
      rfl
    · simp only [writeCtrl_of_not_legal h, CoreState.raise_raise]
  case vlen i =>
    rcases Nat.lt_or_ge 128 w.toNat with h | h
    · simp only [writeVlen_of_gt h, CoreState.raise_raise]
    · simp only [writeVlen_of_le h, CoreState.setVec_vec_same, CoreState.setVec_setVec, Vec.resize_resize]
  case vdata i j =>
    simp only [writeVdata, CoreState.setVec_vec_same, CoreState.setVec_setVec, Vec.setWord_setWord]

/-- R57 to R59, R68: what a step that writes a read-write register leaves, halted or not. -/
theorem step_write_readWrite {s : State} {idx : PortIndex} {w : Word} {rest : List HostInput}
    (hp : s.pending = .write idx w :: rest) (hr : (portReg idx).access = .readWrite) :
    ∃ t, step s = .next t ∧ t.pending = rest ∧
      ((s.core.halted = true ∧ t.core = s.core) ∨
        (s.core.halted = false ∧ t.core = writeData (portReg idx) w s.core)) := by
  cases h : s.core.halted with
  | true =>
    have hidx : portReg idx ≠ .srst := fun he => by simp [he, PortReg.access] at hr
    exact ⟨_, (step_write hp).trans (regWrite_of_halted h hidx), rfl, .inl ⟨rfl, rfl⟩⟩
  | false => exact ⟨_, (step_write hp).trans (regWrite_of_readWrite w h hr), rfl, .inr ⟨rfl, rfl⟩⟩

/-- Settles O44: a CORE halted by the time of the second write ignores it; otherwise the first write ran, and the second
writes what is there. -/
theorem dataWritesAreIdempotent : Obligations.DataWritesAreIdempotent := by
  intro s idx w rest hr hp
  obtain ⟨t, ht, hpt, hfirst⟩ := step_write_readWrite hp hr
  obtain ⟨u, hu, _, hsecond⟩ := step_write_readWrite hpt hr
  refine ⟨t, u, ht, hu, ?_⟩
  rcases hsecond with ⟨_, hcore⟩ | ⟨hrunning, hcore⟩
  · exact hcore
  · rcases hfirst with ⟨hhalted, hsame⟩ | ⟨_, hwritten⟩
    · rw [hsame, hhalted] at hrunning
      cases hrunning
    · rw [hcore, hwritten, writeData_writeData]

/-- Settles O38: the length decides, and a cut or extended vector keeps its positions below the smaller length. -/
theorem vlenWriteResizes : Obligations.VlenWriteResizes := by
  intro s i w rest hrun hp
  rw [step_writeData hp hrun (portReg_vlen_window i) rfl]
  refine ⟨fun hle => ⟨_, by rw [writeData, writeVlen_of_le hle], rfl, fun p hp => ?_⟩, fun hgt => ?_⟩
  · rw [Vec.resize_pos, if_pos hp]
    exact Vec.pos_eq_ite _ p
  · rw [writeData, writeVlen_of_gt hgt, CoreState.raise_running _ _ _ (CoreState.halted_of_none hrun),
      accessInfo_vlenIdx]

/-- Settles O39: R58's positions, and the length unchanged. -/
theorem vdataWriteSetsPositions : Obligations.VdataWriteSetsPositions := by
  intro s i j w rest hrun hp
  refine ⟨_, step_writeData hp hrun (portReg_vdata_window i j) rfl, rfl, fun p hp => ?_⟩
  rw [Vec.setWord_len] at hp
  simp only [Vec.setWord_pos, hp, true_and]

/-- Settles O40: the three checks of R59 on the word's number. -/
theorem ctrlWriteAllOrNone : Obligations.CtrlWriteAllOrNone := by
  intro s w rest hrun hp
  rw [step_writeData (r := .ctrl) hp hrun rfl rfl, writeData]
  refine ⟨fun hlegal => ?_, fun hillegal => ?_⟩
  · obtain ⟨m, hm, hset⟩ := writeCtrl_of_legal hlegal
    exact ⟨m, hm, by rw [hset]; rfl⟩
  · have hnot : ¬ ctrlLegal w := by
      rw [ctrlLegal]
      tauto
    rw [writeCtrl_of_not_legal hnot, CoreState.raise_running _ _ _ (CoreState.halted_of_none hrun)]
    rfl

end Sys2Proof.Machine
end

section
/-! The frame of the vector commands read through the register space (R50, R52, R117). -/

namespace Sys2Proof.Machine

open Sys2Proof

/-- R117, R212, R214: a vector command does nothing, writes its destination, or is its fault entry. -/
theorem exec_vectorOnly_cases {i : Instr} {vd : RegNum} {s t : State} (honly : isVectorOnly i = true)
    (hdest : destOf i = some vd) (h : exec i s = .next t) :
    t = s ∨ (∃ x, t = s.withCore (writeVd s.core vd x)) ∨ ∃ k, t = s.withCore (s.core.raise k (encode i)) := by
  rw [exec_eq_command] at h
  rcases command_cases s i (bodyOf i) with ⟨_, hc⟩ | ⟨_, _, d, hok, hc⟩ | ⟨_, _, k, _, hc⟩ | ⟨_, _, hc⟩ <;>
    cases hc.symm.trans h
  · exact .inl rfl
  · cases bodyOf_written hok with
    | vec hdest' =>
      cases hdest'.symm.trans hdest
      exact .inr (.inl ⟨_, rfl⟩)
    | _ => cases honly
  · exact .inr (.inr ⟨k, rfl⟩)
  · exact .inr (.inr ⟨_, rfl⟩)

/-- R52: a write of `V[i]` is seen in its own window alone. -/
theorem readReg_setVec {c : CoreState} {r : PortReg} {i : Fin 8} (x : Vec) (hlen : r ≠ .vlen i)
    (hdata : ∀ j, r ≠ .vdata i j) : readReg (c.setVec i x) r = readReg c r := by
  cases r with
  | vlen n => simp only [readReg, c.setVec_vec_ne i x n fun hn => hlen (hn ▸ rfl)]
  | vdata n j => simp only [readReg, c.setVec_vec_ne i x n fun hn => hdata j (hn ▸ rfl)]
  | _ => rfl

/-- R212: fault entry is seen in `STATUS` and `FAULTINFO` alone. -/
theorem readReg_raise {c : CoreState} {r : PortReg} (k : FaultKind) (info : Word) (hstatus : r ≠ .status)
    (hinfo : r ≠ .faultInfo) : readReg (c.raise k info) r = readReg c r := by
  cases r with
  | status => exact absurd rfl hstatus
  | faultInfo => exact absurd rfl hinfo
  | _ => simp [readReg, ctrlWord]

/-- Settles O58: the destination is seen in its own window, the fault entry in the two fault registers. -/
theorem vectorCommandRegisterSpaceFrame : Obligations.VectorCommandRegisterSpaceFrame := by
  intro i vd s t idx honly hdest hexec hstatus hinfo hlen hdata
  rcases exec_vectorOnly_cases honly hdest hexec with rfl | ⟨x, rfl⟩ | ⟨k, rfl⟩
  · rfl
  · exact readReg_setVec x hlen hdata
  · exact readReg_raise k _ hstatus hinfo

end Sys2Proof.Machine
end

section
/-! The encoder and the decoder undo each other (R81, R83 to R88): what the decoder reads from an encoded word, what a row's
mask says of the fields of its words, and the statements about all instructions and all words. -/

namespace Sys2Proof

/-- R83, column `match`, for every instruction: its word keeps its row's pattern under its row's mask. -/
theorem encode_and_mask : (i : Instr) → i.WellFormed → encode i &&& i.opcode.mask = i.opcode.pattern
  | .vzero vd len => Laws.EncodeMatches.vzero vd len
  | .vshr vd va n => Laws.EncodeMatches.vshr vd va n
  | .vshl vd va n => Laws.EncodeMatches.vshl vd va n
  | .vxor vd va vb => Laws.EncodeMatches.vxor vd va vb
  | .vcat vd va vb => Laws.EncodeMatches.vcat vd va vb
  | .vslice vd va start stop => Laws.EncodeMatches.vslice vd va start stop
  | .ldkey va => Laws.EncodeMatches.ldkey va
  | .subkey vd r => Laws.EncodeMatches.subkey vd r
  | .frnd vd va vb => Laws.EncodeMatches.frnd vd va vb
  | .bsplit va => Laws.EncodeMatches.bsplit va
  | .rnde r => Laws.EncodeMatches.rnde r
  | .rndd r => Laws.EncodeMatches.rndd r
  | .bjoin vd => Laws.EncodeMatches.bjoin vd
  | .enc vd va => Laws.EncodeMatches.enc vd va
  | .dec vd va => Laws.EncodeMatches.dec vd va
  | .ldiv va => Laws.EncodeMatches.ldiv va
  | .mstart => Laws.EncodeMatches.mstart
  | .mblk vd va => Laws.EncodeMatches.mblk vd va

/-- R81, R83: the top byte of an instruction's word is the `OP` of its row. -/
theorem opField_encode (i : Instr) : opField (encode i) = i.opcode.byte := by
  cases i
  case vslice => exact opField_layoutS ..
  case mstart => rfl
  all_goals exact opField_layout ..

/-- R81, R83: the operands its row reads from an instruction's word are the instruction's own, legal or not. -/
theorem operands_encode (i : Instr) : i.opcode.operands (encode i) = i := by
  cases i
  case vslice =>
    simp only [encode, Instr.opcode, Opcode.operands, formatS_eq_layoutS, vdField_layoutS, vaField_layoutS,
      startField_layoutS, endField_layoutS]
  case mstart => rfl
  all_goals
    simp only [encode, Instr.opcode, Opcode.operands, formatR_eq_layout, formatI_eq_layout, vdField_layout,
      vaField_layout, vbField_layout, immField_layout]

/-- R83: the `OP` values are distinct. -/
theorem Opcode.byte_injective : Function.Injective Opcode.byte := fun op op' h =>
  Option.some.inj (by rw [← opcodeOf_byte, h, opcodeOf_byte])

/-- R81, R83: two instructions have two words. -/
theorem encode_injective : Function.Injective encode := by
  intro i j h
  have hop : i.opcode = j.opcode := Opcode.byte_injective (by rw [← opField_encode, h, opField_encode])
  rw [← operands_encode i, hop, h, operands_encode]

/-- R83: in a word of a row the top byte is the row's `OP`, and no register field has a bit its mask covers. -/
theorem masked_fields {w : Word} {op : Opcode} (hm : w &&& op.mask = op.pattern) :
    opField w = op.byte ∧ vdField w &&& vdField op.mask = 0 ∧ vaField w &&& vaField op.mask = 0 ∧
      vbField w &&& vbField op.mask = 0 := by
  have hop : opField op.mask = BitVec.allOnes 8 := by cases op <;> rfl
  rw [← layout_fields w, ← layout_fields op.mask, layout_and, pattern_eq_layout, hop, BitVec.and_allOnes] at hm
  obtain ⟨hbyte, hvd, hva, hvb, _⟩ := layout_inj hm
  exact ⟨hbyte, hvd, hva, hvb⟩

/-- R83: a word of a row has the row's `OP`. -/
theorem opField_of_match {w : Word} {op : Opcode} (hm : w &&& op.mask = op.pattern) : opField w = op.byte := by
  obtain ⟨hbyte, _⟩ := masked_fields hm
  exact hbyte

/-- R83, R85: in a word of a row every register field the row uses names a register. -/
theorem wellFormed_operands {w : Word} {op : Opcode} (hm : w &&& op.mask = op.pattern) :
    (op.operands w).WellFormed := by
  obtain ⟨_, hvd, hva, hvb⟩ := masked_fields hm
  have valid {r m : RegNum} (h : r &&& m = 0) (h8 : m = 8) : RegNum.valid r = true := by
    subst h8
    exact (RegNum.valid_iff r).mpr h
  cases op
  case rnde | rndd | mstart => rfl
  case vzero | subkey | bjoin => exact valid hvd rfl
  case ldkey | bsplit | ldiv => exact valid hva rfl
  case vshr | vshl | vslice | enc | dec | mblk => exact Bool.and_eq_true_iff.mpr ⟨valid hvd rfl, valid hva rfl⟩
  case vxor | vcat | frnd =>
    exact Bool.and_eq_true_iff.mpr ⟨Bool.and_eq_true_iff.mpr ⟨valid hvd rfl, valid hva rfl⟩, valid hvb rfl⟩

/-- Settles O2: the word keeps its row's pattern under its row's mask, and the row reads the operands back. -/
theorem decodeOfEncode : Obligations.DecodeOfEncode := by
  intro i hwf
  rw [decode_of_match (opField_encode i) (encode_and_mask i hwf), operands_encode]

/-- Settles O3: the fields a row does not use are zero, and bit 3 of those that name a register is. -/
theorem encodeOfDecode : Obligations.EncodeOfDecode := by
  intro w i hdec
  obtain ⟨op, _, hm, rfl⟩ := decode_ok hdec
  exact ⟨encode_of_decode hdec, wellFormed_operands hm⟩

/-- R83, columns `mask` and `match`. -/
def Opcode.row (op : Opcode) : Word × Word := (op.mask, op.pattern)

/-- R83: the table has a row for every opcode. -/
theorem Opcode.mem_all (op : Opcode) : op ∈ Opcode.all := by cases op <;> decide

/-- R83: a word is of one row at most. -/
theorem opcode_unique {w : Word} {op op' : Opcode} (hm : w &&& op.mask = op.pattern)
    (hm' : w &&& op'.mask = op'.pattern) : op = op' :=
  Opcode.byte_injective ((opField_of_match hm).symm.trans (opField_of_match hm'))

/-- R83, R87: the decoder reads a word of exactly one row and refuses a word of none. -/
theorem decode_rows (w : Word) :
    ((∃ i, decode w = .ok i) ∧ ∃! r, r ∈ Opcode.all.map Opcode.row ∧ w &&& r.1 = r.2) ∨
    ((∃ e, decode w = .error e) ∧ ∀ r ∈ Opcode.all.map Opcode.row, w &&& r.1 ≠ r.2) := by
  cases hdec : decode w with
  | ok i =>
    obtain ⟨op, _, hm, _⟩ := decode_ok hdec
    refine .inl ⟨⟨i, rfl⟩, op.row, ⟨List.mem_map_of_mem op.mem_all, hm⟩, ?_⟩
    rintro r ⟨hr, hm'⟩
    obtain ⟨op', _, rfl⟩ := List.mem_map.mp hr
    rw [opcode_unique hm hm']
  | error e =>
    refine .inr ⟨⟨e, rfl⟩, fun r hr hm => ?_⟩
    obtain ⟨op, _, rfl⟩ := List.mem_map.mp hr
    cases hdec.symm.trans (decode_of_match (opField_of_match hm) hm)

/-- Settles O4: the 18 rows written out are those of the opcode map, in its order. -/
theorem everyWordMatchesOneRowOrNone : Obligations.EveryWordMatchesOneRowOrNone := decode_rows

/-- Settles O1, by evaluating the decoder on the seven words. -/
theorem specWordsDecode : Obligations.SpecWordsDecode :=
  ⟨rfl, rfl, rfl, rfl, rfl, rfl, rfl⟩

end Sys2Proof
end

section
/-! What becomes of a word that is no command and of a term that no word decodes to (R85, R88). -/

namespace Sys2Proof.Machine

open Sys2Proof

/-- R88: a word that is no command is the fault entry with itself. -/
theorem runWord_of_decode_error {w : Word} {e : DecodeError} (h : decode w = .error e) (s : State) :
    runWord w s = .next (s.withCore (s.core.raise .illegalOperation w)) := by
  simp only [runWord, h]

/-- Settles O5: the write to `CMD` of a running CORE hands the word to the decoder, whose refusal is the fault entry. -/
theorem illegalWordFaults : Obligations.IllegalWordFaults := by
  intro s w e rest hrun hp hdec
  have hhalted : (s.withPending rest).core.halted = false := CoreState.halted_of_none hrun
  refine (step_write hp).trans ((regWrite_cmd hhalted portReg_cmdIdx).trans ?_)
  rw [runWord_of_decode_error hdec, CoreState.raise_running _ _ _ hhalted]
  rfl

/-- Settles O6: the frame of every command refuses an ill-formed term; its word decodes to no other term, since words are
distinct, and not to itself, since what decodes is well formed. -/
theorem registerFieldAboveSevenFaults : Obligations.RegisterFieldAboveSevenFaults := by
  intro i s hrun hwf
  have hhalted := CoreState.halted_of_none hrun
  refine ⟨?_, ?_⟩
  · rw [exec_eq_command, command_illFormed s i _ hhalted (Bool.eq_false_of_not_eq_true hwf),
      CoreState.raise_running _ _ _ hhalted]
    rfl
  · cases hdec : decode (encode i) with
    | error e => exact ⟨e, rfl⟩
    | ok j =>
      obtain ⟨henc, hwf'⟩ := encodeOfDecode _ _ hdec
      exact absurd (encode_injective henc ▸ hwf') hwf

end Sys2Proof.Machine
end

section
/-! The frame of the vector commands over the fields of the state (R21, R117). -/

namespace Sys2Proof.Machine

open Sys2Proof

/-- R212, R214: fault entry with the command word is the whole effect, or a halted CORE keeps its first fault. -/
theorem faultEntryOnly_raise (i : Instr) (c : CoreState) (k : FaultKind) :
    faultEntryOnly i c (c.raise k (encode i)) := by
  cases h : c.halted with
  | true =>
    rw [CoreState.raise_halted c k _ h]
    exact .inl ⟨rfl, rfl⟩
  | false => exact .inr ⟨(CoreState.halted_eq_false_iff c).mp h, k, CoreState.raise_running c k _ h⟩

/-- Settles O57: of the three effects a vector command can have, a write of the destination leaves every other register,
and fault entry leaves all but the fault registers. -/
theorem vectorCommandFrame : Obligations.VectorCommandFrame := by
  intro i vd s t honly hdest hexec
  rcases exec_vectorOnly_cases honly hdest hexec with rfl | ⟨x, rfl⟩ | ⟨k, rfl⟩
  · simp [State.sameHost, CoreState.sameCtrl, faultEntryOnly]
  · have hvec (j : Fin 8) (hj : j ≠ regIdx vd) : (writeVd s.core vd x).vec j = s.core.vec j :=
      CoreState.setVec_vec_ne _ _ x j hj
    refine ⟨⟨rfl, rfl⟩, hvec, ?_⟩
    simp [writeVd, CoreState.sameCtrl, faultEntryOnly]
  · have hfault := faultEntryOnly_raise i s.core k
    simpa [State.sameHost, CoreState.sameCtrl] using hfault

end Sys2Proof.Machine
end

section
/-! The six BitVector commands of a running CORE (R111 to R116): the position rules of R102 to R106 give the vector each
writes, and the check of its own decides between that write and fault entry. -/

namespace Sys2Proof.Machine

open Sys2Proof

section Running

variable {s : State} {i : Instr} {vd : RegNum} {result : Except FaultKind Vec}

/-- R117: a legal vector command whose result is a vector writes that vector to its destination. -/
theorem exec_of_result_ok {x : Vec} (hrun : s.core.fault = none) (hwf : i.WellFormed)
    (hbody : bodyOf i s.core = storeVec s.core vd result) (hok : result = .ok x) :
    exec i s = .next (s.withCore (s.core.setVec (regIdx vd) x)) := by
  rw [exec_eq_command]
  exact command_ok s i _ (CoreState.halted_of_none hrun) hwf (by rw [hbody, hok, storeVec_ok, writeVd])

/-- R212: a legal vector command whose check fails is the fault entry with its word. -/
theorem exec_of_result_error {k : FaultKind} (hrun : s.core.fault = none) (hwf : i.WellFormed)
    (hbody : bodyOf i s.core = storeVec s.core vd result) (herr : result = .error k) :
    exec i s = .next (s.withCore { s.core with fault := some k, faultInfo := encode i }) := by
  have hhalted := CoreState.halted_of_none hrun
  rw [exec_eq_command, command_error s k i _ hhalted hwf (by rw [hbody, herr, storeVec_error]),
    CoreState.raise_running _ _ _ hhalted]

end Running

/-- R111, R115: a result within `VMAX` passes the capacity check. -/
theorem checkCapacity_of_le {x : Vec} (h : x.len ≤ 128) : checkCapacity x = .ok x := if_neg (Nat.not_lt.mpr h)

/-- R111, R115: a longer result fails it. -/
theorem checkCapacity_of_gt {x : Vec} (h : 128 < x.len) : checkCapacity x = .error .capacityExceeded := if_pos h

/-- Settles O9: the result's length is the immediate, and the capacity check looks at the length alone. -/
theorem vzeroWritesZeroVector : Obligations.VzeroWritesZeroVector := by
  intro vd len s hrun hwf
  refine ⟨rfl, fun hle => ?_, fun hgt => ?_⟩
  · exact exec_of_result_ok hrun hwf rfl (checkCapacity_of_le hle)
  · exact exec_of_result_error hrun hwf rfl (checkCapacity_of_gt hgt)

/-- Settles O10: the command has no check of its own, and R102 gives the positions. -/
theorem vshrShiftsTowardHigherPositions : Obligations.VshrShiftsTowardHigherPositions := by
  intro vd va n s hrun hwf
  exact ⟨rfl, _, exec_of_result_ok hrun hwf rfl rfl, rfl, fun i hi => Vec.shiftRight_pos _ _ i hi⟩

/-- Settles O11: the command has no check of its own, and R103 gives the positions. -/
theorem vshlShiftsTowardLowerPositions : Obligations.VshlShiftsTowardLowerPositions := by
  intro vd va n s hrun hwf
  exact ⟨rfl, _, exec_of_result_ok hrun hwf rfl rfl, rfl, fun i _ => Vec.shiftLeft_pos _ _ i⟩

/-- Settles O12: `Xor` answers a vector exactly when the two lengths agree. -/
theorem vxorWritesBitwiseXor : Obligations.VxorWritesBitwiseXor := by
  intro vd va vb s hrun hwf
  rcases Vec.xor_cases (s.core.vec (regIdx va)) (s.core.vec (regIdx vb)) with ⟨heq, x, hok, hlen, hpos⟩ | ⟨hne, herr⟩
  · exact ⟨rfl, fun _ => ⟨x, exec_of_result_ok hrun hwf rfl hok, hlen, fun i _ => hpos i⟩, fun hne => absurd heq hne⟩
  · exact ⟨rfl, fun heq => absurd heq hne, fun _ => exec_of_result_error hrun hwf rfl herr⟩

/-- Settles O13: the capacity check looks at the sum of the lengths, and R105 puts `va`'s positions before `vb`'s. -/
theorem vcatWritesConcatenation : Obligations.VcatWritesConcatenation := by
  intro vd va vb s hrun hwf
  refine ⟨rfl, fun hle => ⟨_, exec_of_result_ok hrun hwf rfl (checkCapacity_of_le hle), rfl, ?_, ?_⟩, fun hgt => ?_⟩
  · intro i hi
    exact (Vec.concat_pos _ _ i).trans (if_pos hi)
  · intro j _
    exact (Vec.concat_pos (s.core.vec (regIdx va)) (s.core.vec (regIdx vb)) _).trans (by simp)
  · exact exec_of_result_error hrun hwf rfl (checkCapacity_of_gt hgt)

/-- Settles O14: `Slice` answers a vector exactly when the bounds are ordered and within the source. -/
theorem vsliceWritesSubvector : Obligations.VsliceWritesSubvector := by
  intro vd va start stop s hrun hwf
  rcases Vec.slice_cases (s.core.vec (regIdx va)) start.toNat stop.toNat with
    ⟨hstart, hstop, x, hok, hlen, hpos⟩ | ⟨hout, herr⟩
  · refine ⟨rfl, fun _ => ⟨x, exec_of_result_ok hrun hwf rfl hok, hlen, fun j hj => ?_⟩, fun hout => by omega⟩
    exact hpos j (hlen ▸ hj)
  · exact ⟨rfl, fun hin => by omega, fun _ => exec_of_result_error hrun hwf rfl herr⟩

end Sys2Proof.Machine
end

section
/-! F and the subkey scheduler as functions of bits and of numbers (R130 to R132, R136): the integer views, linearity, and
that no result depends on key positions 32..63. -/

namespace Sys2Proof.Machine

open Sys2Proof

/-- R130: F on 32-bit halves in the integer view. -/
theorem roundF_toNat (h k : Half) : (roundF h k).toNat = ((h.toNat <<< 3) &&& 0xFFFFFFFF) ^^^ (k.toNat >>> 2) := by
  have hmask (x : Nat) : x % 2 ^ 32 = x &&& 0xFFFFFFFF := (Nat.and_two_pow_sub_one_eq_mod x 32).symm
  simp only [roundF, shiftLeft, shiftRight, fShl, fShr, BitVec.toNat_xor, BitVec.toNat_shiftLeft,
    BitVec.toNat_ushiftRight, hmask]

/-- R6: the first 32 positions of a key are a number below `2^32`. -/
theorem key_high_lt (key : Block) : key.toNat >>> 32 < 2 ^ 32 := by
  rw [Nat.shiftRight_eq_div_pow]
  omega

/-- R131: the subkey of a round in the integer view, at every round index. -/
theorem roundSubkey_toNat (key : Block) (r : Nat) : (roundSubkey key r).toNat = (key.toNat >>> 32) >>> (8 * r) := by
  have hswap : key.toNat >>> (8 * r) >>> 32 = key.toNat >>> 32 >>> (8 * r) := by
    rw [← Nat.shiftRight_add, ← Nat.shiftRight_add, Nat.add_comm]
  have hfit : key.toNat >>> 32 >>> (8 * r) < 2 ^ 32 := (Nat.shiftRight_le _ _).trans_lt (key_high_lt key)
  rw [roundSubkey, truncate, shiftRight, stride, BitVec.extractLsb'_toNat, BitVec.toNat_ushiftRight, hswap,
    Nat.mod_eq_of_lt hfit]

/-- Settles O18: shifting the key right by `8r` and then dropping its last 32 positions is dropping them first; the 32
positions left are all shifted out from `8r = 32` on. -/
theorem roundIntegerViews : Obligations.RoundIntegerViews := by
  refine ⟨roundF_toNat, fun key r => ?_⟩
  rw [roundSubkey_toNat]
  split
  · rfl
  · next hr =>
    have hpow : 2 ^ 32 ≤ 2 ^ (8 * r) := Nat.pow_le_pow_right (by decide) (Nat.not_lt.mp hr)
    exact Nat.shiftRight_eq_zero _ _ ((key_high_lt key).trans_le hpow)

/-- R130, R136: F is linear in both operands jointly. -/
theorem roundF_xor {n : Nat} (a b k m : BitVec n) : roundF (a ^^^ b) (k ^^^ m) = roundF a k ^^^ roundF b m := by
  simp only [roundF, shiftLeft, shiftRight, BitVec.shiftLeft_xor_distrib, BitVec.ushiftRight_xor_distrib]
  ac_rfl

/-- R136: F maps zero to zero. -/
theorem roundF_zero (n : Nat) : roundF (0 : BitVec n) 0 = 0 := by
  simp [roundF, shiftLeft, shiftRight]

/-- R136: F reads its half from position 3 on. -/
theorem roundF_congr_from_three {n : Nat} {h h' : BitVec n} (k : BitVec n)
    (heq : ∀ i, 3 ≤ i → h.getMsbD i = h'.getMsbD i) : roundF h k = roundF h' k := by
  refine BitVec.eq_of_getMsbD_eq fun i hi => ?_
  rw [roundF_pos h k i hi, roundF_pos h' k i hi, heq (i + 3) (Nat.le_add_left 3 i)]

/-- Settles O20: both shifts and the exclusive or are linear, and position `i` of F takes position `i + 3` of the half. -/
theorem roundFunctionIsLinear : Obligations.RoundFunctionIsLinear :=
  ⟨fun n a b k m => ⟨roundF_xor a b k m, roundF_zero n⟩, fun _ _ _ k heq => roundF_congr_from_three k heq⟩

section SameSubkeys

variable {key key' : Block}

/-- R132: a subkey's position `i` is a key position at most `i`, so one of 0..31. -/
theorem roundSubkey_congr (hkey : ∀ i, i < 32 → key.getMsbD i = key'.getMsbD i) (r : Nat) :
    roundSubkey key r = roundSubkey key' r := by
  refine BitVec.eq_of_getMsbD_eq fun i hi => ?_
  rw [roundSubkey_pos key r i hi, roundSubkey_pos key' r i hi, hkey (i - 8 * r) (by omega)]

variable (hsub : ∀ r, roundSubkey key r = roundSubkey key' r)
include hsub

/-- R151, R153: the encryption rounds see the key through its subkeys alone. -/
theorem encRounds_congr (n : Nat) (p : Half × Half) : encRounds key n p = encRounds key' n p := by
  induction n with
  | zero => rfl
  | succ n ih => rw [encRounds_succ, encRounds_succ, ih, encRound, encRound, hsub]

/-- R152, R154: and so do the decryption rounds. -/
theorem decRounds_congr (n : Nat) (p : Half × Half) : decRounds key n p = decRounds key' n p := by
  induction n generalizing p with
  | zero => rfl
  | succ n ih => rw [decRounds_succ, decRounds_succ, ih, decRound, decRound, hsub]

end SameSubkeys

/-- Settles O19: the subkeys agree position by position, and the rounds, by induction on their count, use nothing else of
the key. -/
theorem keyTailIsUnused : Obligations.KeyTailIsUnused := by
  intro key key' hkey
  have hsub := roundSubkey_congr hkey
  exact ⟨hsub, fun b n => ⟨congrArg join (encRounds_congr hsub n _), congrArg join (decRounds_congr hsub n _)⟩⟩

end Sys2Proof.Machine
end

section
/-! The frame of the six commands without a destination (R133, R159 to R161, R190, R191). -/

namespace Sys2Proof.Machine

open Sys2Proof

/-- R88, R212, R214: a command does nothing, writes what its row names, or is its fault entry. -/
theorem exec_cases {i : Instr} {s t : State} (h : exec i s = .next t) :
    t = s ∨ (∃ d, Written s.core i d ∧ t = s.withCore d) ∨ ∃ k, t = s.withCore (s.core.raise k (encode i)) := by
  rw [exec_eq_command] at h
  rcases command_cases s i (bodyOf i) with ⟨_, hc⟩ | ⟨_, _, d, hok, hc⟩ | ⟨_, _, k, _, hc⟩ | ⟨_, _, hc⟩ <;>
    cases hc.symm.trans h
  · exact .inl rfl
  · exact .inr (.inl ⟨d, bodyOf_written hok, rfl⟩)
  · exact .inr (.inr ⟨k, rfl⟩)
  · exact .inr (.inr ⟨_, rfl⟩)

section NoDestination

variable {c d : CoreState} {i : Instr}

/-- R21: a command without a destination writes no vector register. -/
theorem Written.vec_eq (h : Written c i d) (hdest : destOf i = none) (j : Fin 8) : d.vec j = c.vec j := by
  cases h with
  | vec hsome => cases hsome.symm.trans hdest
  | enc | dec | mblk => cases hdest
  | ldkey | ldiv | bsplit | rnde | rndd | mstart => rfl

/-- R25: of the commands without a destination, `BSPLIT`, `RNDE` and `RNDD` write `L` and `R`. -/
theorem Written.halves_writer (h : Written c i d) (hdest : destOf i = none)
    (hne : ¬ (d.left = c.left ∧ d.right = c.right)) :
    (∃ va, i = .bsplit va) ∨ (∃ r, i = .rnde r) ∨ ∃ r, i = .rndd r := by
  cases h with
  | bsplit va => exact .inl ⟨va, rfl⟩
  | rnde r => exact .inr (.inl ⟨r, rfl⟩)
  | rndd r => exact .inr (.inr ⟨r, rfl⟩)
  | enc | dec | mblk => cases hdest
  | vec | ldkey | ldiv | mstart => exact absurd ⟨rfl, rfl⟩ hne

end NoDestination

/-- Settles O59: a completed command changes the registers its row names, and fault entry none but the fault registers. -/
theorem cipherRegisterCommandFrame : Obligations.CipherRegisterCommandFrame := by
  intro i s t hdest hexec
  rcases exec_cases hexec with rfl | ⟨d, hd, rfl⟩ | ⟨k, rfl⟩
  · simp [State.sameHost, CoreState.sameCtrl, faultEntryOnly]
  · obtain ⟨hnr, hmode, hdir, hfault, hinfo⟩ := hd.ctrl_fault_eq
    refine ⟨⟨rfl, rfl⟩, hd.vec_eq hdest, ⟨hnr, hmode, hdir⟩, .inl ⟨hfault, hinfo⟩, fun hi => ?_, fun hi => ?_,
      fun hsplit hrnde hrndd => ?_, fun hi => ?_⟩ <;> by_contra hne
    · obtain ⟨va, rfl⟩ := hd.key_writer hne
      exact hi va rfl
    · obtain ⟨va, rfl⟩ := hd.iv_writer hne
      exact hi va rfl
    · rcases hd.halves_writer hdest hne with ⟨va, rfl⟩ | ⟨r, rfl⟩ | ⟨r, rfl⟩
      · exact hsplit va rfl
      · exact hrnde r rfl
      · exact hrndd r rfl
    · rcases hd.message_writer (not_and_or.mp hne) with rfl | ⟨vd, va, rfl⟩
      · exact hi rfl
      · cases hdest
  · have hfault := faultEntryOnly_raise i s.core k
    simpa [State.sameHost, CoreState.sameCtrl] using hfault

end Sys2Proof.Machine
end

section
/-! The commands `LDKEY`, `SUBKEY` and `FRND` of a running CORE (R133 to R135). -/

namespace Sys2Proof.Machine

open Sys2Proof

section Running

variable {s : State} {i : Instr}

/-- R88 step 4: a legal command of a running CORE whose checks pass leaves what its body answers. -/
theorem exec_of_body_ok {d : CoreState} (hrun : s.core.fault = none) (hwf : i.WellFormed)
    (hok : bodyOf i s.core = .ok d) : exec i s = .next (s.withCore d) :=
  (exec_eq_command i s).trans (command_ok s i _ (CoreState.halted_of_none hrun) hwf hok)

/-- R88 step 3, R212: one whose check fails is the fault entry with its word. -/
theorem exec_of_body_error {k : FaultKind} (hrun : s.core.fault = none) (hwf : i.WellFormed)
    (herr : bodyOf i s.core = .error k) :
    exec i s = .next (s.withCore { s.core with fault := some k, faultInfo := encode i }) := by
  have hhalted := CoreState.halted_of_none hrun
  rw [exec_eq_command, command_error s k i _ hhalted hwf herr, CoreState.raise_running _ _ _ hhalted]

end Running

/-- R133, R190: any length but 64 fails the key check. -/
theorem key64Operand_of_len_ne {c : CoreState} {r : RegNum} (h : (srcVec c r).len ≠ 64) :
    key64Operand c r = .error .lengthMismatch := by
  rcases key64Operand_cases c r with ⟨b, hb, _⟩ | ⟨_, herr⟩
  · exact absurd (congrArg Vec.len hb) h
  · exact herr

/-- Settles O15: the key check passes exactly at length 64. -/
theorem ldkeyLoadsKey : Obligations.LdkeyLoadsKey := by
  intro va s hrun hwf
  refine ⟨rfl, fun k hk => exec_of_body_ok hrun hwf ?_, fun hne => exec_of_body_error hrun hwf ?_⟩
  · rw [bodyOf, key64Operand_of_len _ _ hk, Except.map]
  · rw [bodyOf, key64Operand_of_len_ne hne, Except.map]

/-- Settles O16: the command has no check of its own, and R131 gives the positions. -/
theorem subkeyWritesRoundSubkey : Obligations.SubkeyWritesRoundSubkey := by
  intro vd r s hrun hwf
  exact ⟨rfl, _, exec_of_result_ok hrun hwf rfl rfl, roundSubkey_pos s.core.key r.toNat⟩

/-- R130: F of two BitVectors of one length, position by position. -/
theorem vecRoundF_of_len_eq {h k : Vec} (heq : h.len = k.len) :
    ∃ x, vecRoundF h k = .ok x ∧ x.len = h.len ∧ ∀ i, i < x.len → x.pos i =
      ((if i + 3 < x.len then h.pos (i + 3) else false) ^^ (if 2 ≤ i then k.pos (i - 2) else false)) := by
  obtain ⟨n, a⟩ := h
  obtain ⟨m, b⟩ := k
  obtain rfl : n = m := heq
  exact ⟨_, vecRoundF_mk a b, rfl, roundF_pos a b⟩

/-- R130: F of two BitVectors of different lengths. -/
theorem vecRoundF_of_len_ne {h k : Vec} (hne : h.len ≠ k.len) : vecRoundF h k = .error .lengthMismatch := by
  rcases vecRoundF_cases h k with ⟨heq, _⟩ | ⟨_, herr⟩
  · exact absurd heq hne
  · exact herr

/-- Settles O17: F answers a vector exactly when the two lengths agree, with R130's positions. -/
theorem frndWritesRoundFunction : Obligations.FrndWritesRoundFunction := by
  intro vd va vb s hrun hwf
  refine ⟨rfl, fun heq => ?_, fun hne => exec_of_result_error hrun hwf rfl (vecRoundF_of_len_ne hne)⟩
  obtain ⟨x, hok, hlen, hpos⟩ := vecRoundF_of_len_eq heq
  exact ⟨x, exec_of_result_ok hrun hwf rfl hok, hlen, hpos⟩

end Sys2Proof.Machine
end

section
/-! The Feistel network as functions of pairs and blocks (R150 to R157): the halves position by position, each round and
each block function undone by the other, the loops as folds over their round indices, and R157's classical form. -/

namespace Sys2Proof.Machine

open Sys2Proof

section Positions

variable {i : Nat} (hi : i < 32)
include hi

/-- R150: `Left(b)` is positions 0..31. -/
theorem leftHalf_pos (b : Block) : (leftHalf b).getMsbD i = b.getMsbD i := by
  rw [leftHalf, sliceBits_pos i b (by decide) (by decide), if_pos hi, Nat.zero_add]

/-- R150: `Right(b)` is positions 32..63. -/
theorem rightHalf_pos (b : Block) : (rightHalf b).getMsbD i = b.getMsbD (32 + i) := by
  rw [rightHalf, sliceBits_pos i b (by decide) (by decide), if_pos hi]

/-- R150: the left half of a joined pair, by position. -/
theorem join_pos_left (p : Half × Half) : (join p).getMsbD i = p.1.getMsbD i := by
  rw [join, BitVec.getMsbD_append, if_neg (Nat.not_le.mpr hi)]

end Positions

/-- R150: the right half of a joined pair, by position. -/
theorem join_pos_right (p : Half × Half) (i : Nat) : (join p).getMsbD (32 + i) = p.2.getMsbD i := by
  rw [join, BitVec.getMsbD_append, if_pos (Nat.le_add_right 32 i), Nat.add_sub_cancel_left]

section Rounds

variable (key : Block) (r n : Nat) (p : Half × Half) (b : Block)

/-- R155: a decryption round undoes the encryption round of its index. -/
@[simp] theorem decRound_encRound : decRound key r (encRound key r p) = p := by
  simp [decRound, encRound]

/-- R155: an encryption round undoes the decryption round of its index. -/
@[simp] theorem encRound_decRound : encRound key r (decRound key r p) = p := by
  simp [decRound, encRound]

/-- R157: a decryption round is the encryption round between two swaps. -/
theorem decRound_eq_swap : decRound key r p = (encRound key r p.swap).swap := rfl

/-- R155: the rounds `n-1` down to 0 undo the rounds 0 up to `n-1`, the last one first. -/
theorem decRounds_encRounds : decRounds key n (encRounds key n p) = p := by
  induction n with
  | zero => rfl
  | succ n ih => rw [encRounds_succ, decRounds_succ, decRound_encRound, ih]

/-- R155: and the reverse. -/
theorem encRounds_decRounds : encRounds key n (decRounds key n p) = p := by
  induction n generalizing p with
  | zero => rfl
  | succ n ih => rw [decRounds_succ, encRounds_succ, ih, encRound_decRound]

/-- R155: block decryption inverts block encryption. -/
theorem decrypt_encrypt : decrypt (encrypt b key n) key n = b := by
  rw [decrypt, decryptPair, encrypt, encryptPair, halves_join, decRounds_encRounds, join_halves]

/-- R155: block encryption inverts block decryption. -/
theorem encrypt_decrypt : encrypt (decrypt b key n) key n = b := by
  rw [encrypt, encryptPair, decrypt, decryptPair, halves_join, encRounds_decRounds, join_halves]

/-- R155: block encryption under one key and round count is a bijection on blocks. -/
theorem encrypt_bijective : Function.Bijective fun x => encrypt x key n :=
  Function.bijective_iff_has_inverse.mpr
    ⟨fun x => decrypt x key n, fun x => decrypt_encrypt key n x, fun x => encrypt_decrypt key n x⟩

/-- R153: the encryption rounds run over the indices `0, ..., n-1`. -/
theorem encRounds_eq_foldl : encRounds key n p = (List.range n).foldl (fun p r => encRound key r p) p := by
  induction n with
  | zero => rfl
  | succ n ih => rw [encRounds_succ, ih, List.range_succ, List.foldl_concat]

/-- R154: the decryption rounds run over the indices `n-1, ..., 0`. -/
theorem decRounds_eq_foldl : decRounds key n p = (List.range n).reverse.foldl (fun p r => decRound key r p) p := by
  induction n generalizing p with
  | zero => rfl
  | succ n ih => rw [decRounds_succ, ih, List.range_succ, List.reverse_concat, List.foldl_cons]

/-- R157: between two rounds in a row the inner swaps cancel, whatever the indices. -/
theorem foldl_decRound_eq_swap (rs : List Nat) : rs.foldl (fun p r => decRound key r p) p =
    (rs.foldl (fun p r => encRound key r p) p.swap).swap := by
  induction rs generalizing p with
  | nil => exact p.swap_swap.symm
  | cons r rs ih => rw [List.foldl_cons, List.foldl_cons, ih, decRound_eq_swap, Prod.swap_swap]

end Rounds

/-- Settles O27: the exclusive or with F's value cancels in each round, so the loops, run in opposite orders, cancel round
by round. -/
theorem decryptionInvertsEncryption : Obligations.DecryptionInvertsEncryption :=
  ⟨fun key r p => ⟨decRound_encRound key r p, encRound_decRound key r p⟩,
    fun b key n => ⟨decrypt_encrypt key n b, encrypt_decrypt key n b, encrypt_bijective key n⟩⟩

/-- Settles O28: each decryption round is swapped encryption, and only the outer two swaps are left of the loop's. -/
theorem classicalFeistelForm : Obligations.ClassicalFeistelForm := by
  refine ⟨decRound_eq_swap, fun b key n => ?_⟩
  rw [decrypt, decryptPair, decRounds_eq_foldl, foldl_decRound_eq_swap]

end Sys2Proof.Machine
end

section
/-! The six commands of the block cipher in a running CORE (R159 to R164): what each writes, and the check of a block
operand. -/

namespace Sys2Proof.Machine

open Sys2Proof

/-- R159, R163, R164, R192: any length but 64 fails the block check. -/
theorem blockOperand_of_len_ne {c : CoreState} {r : RegNum} (h : (srcVec c r).len ≠ 64) :
    blockOperand c r = .error .invalidBlockLength := by
  rcases blockOperand_cases c r with ⟨b, hb, _⟩ | ⟨_, herr⟩
  · exact absurd (congrArg Vec.len hb) h
  · exact herr

section BlockOperand

variable {s : State} {i : Instr} {va : RegNum} {f : Block → CoreState}

/-- R88: a legal command on a 64-bit block leaves what it makes of the block. -/
theorem exec_of_block_ok {b : Block} (hrun : s.core.fault = none) (hwf : i.WellFormed)
    (hbody : bodyOf i s.core = (blockOperand s.core va).map f) (hb : s.core.vec (regIdx va) = ⟨64, b⟩) :
    exec i s = .next (s.withCore (f b)) :=
  exec_of_body_ok hrun hwf (by rw [hbody, blockOperand_of_len _ _ hb, Except.map])

/-- R211: a legal command on a block of another length is `InvalidBlockLength` with its word. -/
theorem exec_of_block_error (hrun : s.core.fault = none) (hwf : i.WellFormed)
    (hbody : bodyOf i s.core = (blockOperand s.core va).map f) (hlen : (s.core.vec (regIdx va)).len ≠ 64) :
    exec i s = .next (s.withCore { s.core with fault := some .invalidBlockLength, faultInfo := encode i }) :=
  exec_of_body_error hrun hwf (by rw [hbody, blockOperand_of_len_ne hlen, Except.map])

end BlockOperand

section Running

variable {s : State} (hrun : s.core.fault = none)
include hrun

/-- R160. -/
theorem exec_rnde (r : Imm) :
    exec (.rnde r) s = .next (s.withCore (s.core.setHalves (encRound s.core.key r.toNat s.core.pair))) :=
  exec_of_body_ok hrun rfl rfl

/-- R161. -/
theorem exec_rndd (r : Imm) :
    exec (.rndd r) s = .next (s.withCore (s.core.setHalves (decRound s.core.key r.toNat s.core.pair))) :=
  exec_of_body_ok hrun rfl rfl

/-- R162. -/
theorem exec_bjoin {vd : RegNum} (hvd : RegNum.valid vd = true) :
    exec (.bjoin vd) s = .next (s.withCore (writeVd s.core vd ⟨64, join s.core.pair⟩)) :=
  exec_of_body_ok hrun hvd rfl

variable {va : RegNum} (hva : RegNum.valid va = true) {b : Block} (hb : s.core.vec (regIdx va) = ⟨64, b⟩)
include hva hb

/-- R159. -/
theorem exec_bsplit : exec (.bsplit va) s = .next (s.withCore (s.core.setHalves (halves b))) :=
  exec_of_block_ok (i := .bsplit va) hrun hva rfl hb

variable {vd : RegNum} (hvd : RegNum.valid vd = true)
include hvd

/-- R163. -/
theorem exec_enc : exec (.enc vd va) s =
    .next (s.withCore (storePair s.core vd (encryptPair b s.core.key s.core.nr.toNat))) :=
  exec_of_block_ok (i := .enc vd va) hrun (Bool.and_eq_true_iff.mpr ⟨hvd, hva⟩) rfl hb

/-- R164. -/
theorem exec_dec : exec (.dec vd va) s =
    .next (s.withCore (storePair s.core vd (decryptPair b s.core.key s.core.nr.toNat))) :=
  exec_of_block_ok (i := .dec vd va) hrun (Bool.and_eq_true_iff.mpr ⟨hvd, hva⟩) rfl hb

end Running

/-- Settles O21: the block check passes exactly at length 64, and R150 gives the positions of the halves. -/
theorem bsplitLoadsHalves : Obligations.BsplitLoadsHalves := by
  intro va s hrun hva
  refine ⟨rfl, fun b hb => ⟨_, _, exec_bsplit hrun hva hb, fun i hi => ?_⟩, exec_of_block_error hrun hva rfl⟩
  exact ⟨leftHalf_pos hi b, rightHalf_pos hi b⟩

/-- Settles O22: the command has no check, and R151's round is written out. -/
theorem rndeRunsOneEncryptionRound : Obligations.RndeRunsOneEncryptionRound :=
  fun r _ hrun => ⟨rfl, exec_rnde hrun r⟩

/-- Settles O24: the command has no check of its own, and R150 gives the positions of the join. -/
theorem bjoinWritesJoinedHalves : Obligations.BjoinWritesJoinedHalves := by
  intro vd s hrun hvd
  exact ⟨rfl, _, exec_bjoin hrun hvd, fun i hi => ⟨join_pos_left hi _, join_pos_right _ i⟩⟩

/-- Settles O25: the block check passes exactly at length 64; what is written is `Encrypt`'s final pair and its join. -/
theorem encEncryptsBlock : Obligations.EncEncryptsBlock := by
  intro vd va s hrun hwf
  obtain ⟨hvd, hva⟩ := Bool.and_eq_true_iff.mp hwf
  exact ⟨rfl, fun b hb => ⟨_, _, rfl, exec_enc hrun hva hb hvd, rfl⟩, exec_of_block_error hrun hwf rfl⟩

/-- Settles O26: the block check passes exactly at length 64; what is written is `Decrypt`'s final pair and its join. -/
theorem decDecryptsBlock : Obligations.DecDecryptsBlock := by
  intro vd va s hrun hwf
  obtain ⟨hvd, hva⟩ := Bool.and_eq_true_iff.mp hwf
  exact ⟨rfl, fun b hb => ⟨_, _, rfl, exec_dec hrun hva hb hvd, rfl⟩, exec_of_block_error hrun hwf rfl⟩

end Sys2Proof.Machine
end

section
/-! Sequences of block cipher commands (R155, R161, R163, R164): commands that run rounds one after another compose the
rounds, so a sequence between `BSPLIT` and `BJOIN` is a block function. -/

namespace Sys2Proof.Machine

open Sys2Proof

section Sequences

variable {i : Instr} {is js : List Instr} {s t : State}

/-- A command that gives a next state hands it to the rest of the sequence. -/
theorem execAll_cons_of_next (h : exec i s = .next t) : execAll (i :: is) s = execAll is t := by
  rw [execAll, h]

/-- And so does a sequence. -/
theorem execAll_append_of_next (h : execAll is s = .next t) : execAll (is ++ js) s = execAll js t := by
  induction is generalizing s with
  | nil =>
    cases h
    rfl
  | cons i is ih =>
    obtain ⟨d, hd⟩ := exec_next i s
    rw [execAll_cons_of_next hd] at h
    rw [List.cons_append, execAll_cons_of_next hd, ih h]

end Sequences

/-- The pair `(L, R)` of a state is the pair last written. -/
@[simp] theorem CoreState.pair_setHalves (c : CoreState) (p : Half × Half) : (c.setHalves p).pair = p := rfl

/-- R25: of two writes of the pair the second counts. -/
@[simp] theorem CoreState.setHalves_setHalves (c : CoreState) (p q : Half × Half) :
    (c.setHalves p).setHalves q = c.setHalves q := rfl

/-- R25: writing the pair back changes nothing. -/
@[simp] theorem CoreState.setHalves_pair (c : CoreState) : c.setHalves c.pair = c := rfl

/-- R160, R161: `cmd r` runs `round` with index `r` on `(L, R)` of a running CORE, and does nothing else. -/
def RunsRound (cmd : Imm → Instr) (round : Block → Nat → Half × Half → Half × Half) : Prop :=
  ∀ (r : Imm) (s : State) (c : CoreState), c.fault = none →
    exec (cmd r) (s.withCore c) = .next (s.withCore (c.setHalves (round c.key r.toNat c.pair)))

theorem runsRound_rnde : RunsRound .rnde encRound := fun r s c hrun => exec_rnde (s := s.withCore c) hrun r

theorem runsRound_rndd : RunsRound .rndd decRound := fun r s c hrun => exec_rndd (s := s.withCore c) hrun r

section Rounds

variable {cmd cmd' : Imm → Instr} {round round' : Block → Nat → Half × Half → Half × Half} (s : State) {c : CoreState}

/-- R161: two round commands of which the second undoes the first end in the state they began in. -/
theorem execAll_inverse_rounds (hcmd : RunsRound cmd round) (hcmd' : RunsRound cmd' round') (r : Imm)
    (hinv : ∀ p, round' c.key r.toNat (round c.key r.toNat p) = p) (hrun : c.fault = none) :
    execAll [cmd r, cmd' r] (s.withCore c) = .next (s.withCore c) := by
  have hsecond := hcmd' r s (c.setHalves (round c.key r.toNat c.pair)) hrun
  rw [execAll_cons_of_next (hcmd r s c hrun), execAll_cons_of_next hsecond, execAll, CoreState.pair_setHalves,
    CoreState.setHalves_key, hinv, CoreState.setHalves_setHalves, CoreState.setHalves_pair]

variable (hcmd : RunsRound cmd round) {rs : List Nat} (hrs : ∀ r ∈ rs, r < 4096)
include hcmd hrs

/-- R153, R154: round commands one after another compose their rounds; an index fits the immediate (R82). -/
theorem execAll_rounds (hrun : c.fault = none) : execAll (rs.map fun r => cmd (BitVec.ofNat 12 r)) (s.withCore c) =
    .next (s.withCore (c.setHalves (rs.foldl (fun p r => round c.key r p) c.pair))) := by
  induction rs generalizing c with
  | nil => rfl
  | cons r rs ih =>
    obtain ⟨hr, hrs⟩ := List.forall_mem_cons.mp hrs
    have hidx : (BitVec.ofNat 12 r).toNat = r := by rw [BitVec.toNat_ofNat, Nat.mod_eq_of_lt hr]
    have hrest := ih (c := c.setHalves (round c.key r c.pair)) hrs hrun
    rw [List.map_cons, execAll_cons_of_next (hcmd _ s c hrun), hidx, hrest, CoreState.setHalves_setHalves]
    rfl

/-- R163, R164: the rounds between `BSPLIT` and `BJOIN` leave the final pair and its join, as a composite command does. -/
theorem execAll_split_rounds_join {vd va : RegNum} {b : Block} (hrun : s.core.fault = none)
    (hvd : RegNum.valid vd = true) (hva : RegNum.valid va = true) (hb : s.core.vec (regIdx va) = ⟨64, b⟩) :
    execAll ([.bsplit va] ++ (rs.map fun r => cmd (BitVec.ofNat 12 r)) ++ [.bjoin vd]) s =
      .next (s.withCore (storePair s.core vd (rs.foldl (fun p r => round s.core.key r p) (halves b)))) := by
  have hrounds := execAll_rounds s (c := s.core.setHalves (halves b)) hcmd hrs hrun
  rw [CoreState.setHalves_setHalves, CoreState.pair_setHalves, CoreState.setHalves_key] at hrounds
  rw [List.append_assoc, List.singleton_append, execAll_cons_of_next (exec_bsplit hrun hva hb),
    execAll_append_of_next hrounds]
  exact execAll_cons_of_next (exec_bjoin (s := s.withCore (s.core.setHalves _)) hrun hvd)

end Rounds

/-- Settles O23: the command has no check, and the rounds of one index undo each other (R155). -/
theorem rnddRunsOneDecryptionRound : Obligations.RnddRunsOneDecryptionRound := fun r s hrun =>
  ⟨rfl, exec_rndd hrun r,
    execAll_inverse_rounds s runsRound_rnde runsRound_rndd r (decRound_encRound s.core.key r.toNat) hrun,
    execAll_inverse_rounds s runsRound_rndd runsRound_rnde r (encRound_decRound s.core.key r.toNat) hrun⟩

/-- Settles O29: both sides leave the final pair of the rounds `0, ..., NR-1`, up or down, and its join; a round index is
below `NR`, so it fits the immediate. -/
theorem compositesEqualStepSequences : Obligations.CompositesEqualStepSequences := by
  intro vd va s b hrun hvd hva hb
  have hrange : ∀ r ∈ List.range s.core.nr.toNat, r < 4096 := fun r hr =>
    (List.mem_range.mp hr).trans (s.core.nr.isLt.trans (by decide))
  have hreverse : ∀ r ∈ (List.range s.core.nr.toNat).reverse, r < 4096 := fun r hr =>
    hrange r (List.mem_reverse.mp hr)
  constructor
  · rw [exec_enc hrun hva hb hvd, encSteps, execAll_split_rounds_join s runsRound_rnde hrange hrun hvd hva hb,
      encryptPair, encRounds_eq_foldl]
  · rw [exec_dec hrun hva hb hvd, decSteps, execAll_split_rounds_join s runsRound_rndd hreverse hrun hvd hva hb,
      decryptPair, decRounds_eq_foldl]

/-- R163, R164: the destination holds the join of the final pair. -/
theorem storePair_vec_same (c : CoreState) (vd : RegNum) (p : Half × Half) :
    (storePair c vd p).vec (regIdx vd) = ⟨64, join p⟩ :=
  CoreState.setVec_vec_same _ _ _

/-- Settles O30: `ENC` leaves the encrypted block in `V[vx]` and `KEY`, `NR` as they were, so `DEC` inverts it (R155). -/
theorem decAfterEncRestoresBlock : Obligations.DecAfterEncRestoresBlock := by
  intro vd vx va s b hrun hvd hvx hva hb
  have henc := exec_enc hrun hva hb hvx
  have hvec := storePair_vec_same s.core vx (encryptPair b s.core.key s.core.nr.toNat)
  have hdec := exec_dec (s := s.withCore (storePair s.core vx (encryptPair b s.core.key s.core.nr.toNat)))
    hrun hvx hvec hvd
  refine ⟨_, (execAll_cons_of_next henc).trans (execAll_cons_of_next hdec), ?_, hrun⟩
  refine (storePair_vec_same _ _ _).trans (congrArg (Vec.mk 64) ?_)
  exact decrypt_encrypt s.core.key s.core.nr.toNat b

end Sys2Proof.Machine
end

section
/-! The frame of the three commands that process a block (R163, R164, R192). -/

namespace Sys2Proof.Machine

open Sys2Proof

/-- R192: in mode none the feed stays, in either direction. -/
theorem chainBlock_feed_of_none (dir : Dir) (key : Block) (n : Nat) (x f : Block) :
    (chainBlock .none dir key n x f).feed = f := by
  cases dir <;> rfl

section Destination

variable {c d : CoreState} {i : Instr}

/-- R21: a completed command writes no vector register but its destination. -/
theorem Written.vec_eq_of_ne (h : Written c i d) {vd : RegNum} (hdest : destOf i = some vd) {j : Fin 8}
    (hj : j ≠ regIdx vd) : d.vec j = c.vec j := by
  cases h with
  | vec hdest' =>
    cases hdest'.symm.trans hdest
    exact CoreState.setVec_vec_ne _ _ _ j hj
  | enc | dec | mblk =>
    cases hdest
    exact CoreState.setVec_vec_ne _ _ _ j hj
  | ldkey | ldiv | bsplit | rnde | rndd | mstart => cases hdest

/-- R192: in mode none no completed command but `MSTART` changes `FEED`. -/
theorem Written.feed_eq_of_mode_none (h : Written c i d) (hi : i ≠ .mstart) (hmode : c.mode = .none) :
    d.feed = c.feed := by
  cases h with
  | mstart => exact absurd rfl hi
  | mblk vd va x =>
    show (chainBlock c.mode _ _ _ _ _).feed = _
    rw [hmode, chainBlock_feed_of_none]
  | vec | ldkey | ldiv | bsplit | rnde | rndd | enc | dec => rfl

end Destination

/-- R83: the row of a command that processes a block, with the destination it names. -/
theorem blockCommand_row {i : Instr} {vd va : RegNum} (h : i = .enc vd va ∨ i = .dec vd va ∨ i = .mblk vd va) :
    destOf i = some vd ∧ (∀ r, i ≠ .ldkey r) ∧ (∀ r, i ≠ .ldiv r) ∧ i ≠ .mstart ∧
      ∀ vd' va', i = .mblk vd' va' → i = .mblk vd va := by
  rcases h with rfl | rfl | rfl <;> simp [destOf]

/-- Settles O60: a completed command changes the registers its row names, and fault entry none but the fault registers. -/
theorem blockCommandFrame : Obligations.BlockCommandFrame := by
  intro i vd va s t hi hexec
  obtain ⟨hdest, hldkey, hldiv, hmstart, hmblk⟩ := blockCommand_row hi
  rcases exec_cases hexec with rfl | ⟨d, hd, rfl⟩ | ⟨k, rfl⟩
  · simp [State.sameHost, CoreState.sameCtrl, faultEntryOnly]
  · obtain ⟨hnr, hmode, hdir, hfault, hinfo⟩ := hd.ctrl_fault_eq
    refine ⟨⟨rfl, rfl⟩, fun j hj => hd.vec_eq_of_ne hdest hj, ?_, ?_, ⟨hnr, hmode, hdir⟩, .inl ⟨hfault, hinfo⟩,
      fun hne => ?_, hd.feed_eq_of_mode_none hmstart⟩
    · by_contra hkey
      obtain ⟨r, hr⟩ := hd.key_writer hkey
      exact hldkey r hr
    · by_contra hiv
      obtain ⟨r, hr⟩ := hd.iv_writer hiv
      exact hldiv r hr
    · by_contra hmessage
      rcases hd.message_writer (not_and_or.mp hmessage) with hr | ⟨vd', va', hr⟩
      · exact hmstart hr
      · exact hne (hmblk vd' va' hr)
  · have hfault := faultEntryOnly_raise i s.core k
    simpa [State.sameHost, CoreState.sameCtrl] using hfault

end Sys2Proof.Machine
end

section
/-! The three commands of chaining in a running CORE (R190 to R192): what each writes, and the check of its operand. -/

namespace Sys2Proof.Machine

open Sys2Proof

/-- R153: the halves of an encrypted block are the final pair of its rounds. -/
theorem halves_encrypt (b key : Block) (n : Nat) : halves (encrypt b key n) = encryptPair b key n := halves_join _

/-- R154: and so are those of a decrypted block. -/
theorem halves_decrypt (b key : Block) (n : Nat) : halves (decrypt b key n) = decryptPair b key n := halves_join _

section Running

variable {s : State} (hrun : s.core.fault = none)
include hrun

/-- R190. -/
theorem exec_ldiv {va : RegNum} (hva : RegNum.valid va = true) {x : Block}
    (hx : s.core.vec (regIdx va) = ⟨64, x⟩) : exec (.ldiv va) s = .next (s.withCore (s.core.setIv x)) :=
  exec_of_body_ok hrun hva (by rw [bodyOf, key64Operand_of_len _ _ hx, Except.map])

/-- R192, in the case of the mode and direction that `CTRL` holds. -/
theorem exec_mblk {vd va : RegNum} (hwf : Instr.WellFormed (.mblk vd va)) {x : Block}
    (hx : s.core.vec (regIdx va) = ⟨64, x⟩) {mode : Mode} {dir : Dir} (hmode : s.core.mode = mode)
    (hdir : s.core.dir = dir) : exec (.mblk vd va) s = .next (s.withCore (storeBlockStep s.core vd
      (chainBlock mode dir s.core.key s.core.nr.toNat x s.core.feed))) := by
  subst hmode hdir
  exact exec_of_block_ok hrun hwf rfl hx

end Running

/-- Settles O31: the IV check passes exactly at length 64. -/
theorem ldivLoadsIv : Obligations.LdivLoadsIv := by
  intro va s hrun hwf
  refine ⟨rfl, fun x hx => exec_ldiv hrun hwf hx, fun hne => exec_of_body_error hrun hwf ?_⟩
  rw [bodyOf, key64Operand_of_len_ne hne, Except.map]

/-- Settles O32: the command has no check. -/
theorem mstartBeginsMessage : Obligations.MstartBeginsMessage :=
  fun _ hrun => ⟨rfl, exec_of_body_ok hrun rfl rfl⟩

/-- Settles O33: the block check passes exactly at length 64; the six cases are the rows of the table, whose pair is that
of the one cipher call. -/
theorem mblkProcessesOneBlock : Obligations.MblkProcessesOneBlock := by
  intro vd va s hrun hwf k n f after
  refine ⟨rfl, fun x hx => ?_, exec_of_block_error hrun hwf rfl⟩
  refine ⟨fun hm hd => ?_, fun hm hd => ?_, fun hm hd => ?_, fun hm hd => ?_, fun hm hd => ?_, fun hm hd => ?_⟩ <;>
    rw [exec_mblk hrun hwf hx hm hd, chainBlock]
  case refine_1 | refine_3 | refine_5 | refine_6 => rw [← halves_encrypt]; rfl
  case refine_2 | refine_4 => rw [← halves_decrypt]; rfl

end Sys2Proof.Machine
end

section
/-! The recurrences of all modes and directions as steps of R192's case table, one per block, and what the table makes of
them: decryption undoes encryption (R188), and under CBC and CFB a changed block changes every later one (R189). -/

namespace Sys2Proof.Machine

open Sys2Proof

section Chain

variable (mode : Mode) (dir : Dir) (key f : Block) (n : Nat)

@[simp] theorem processBlocks_nil : processBlocks mode dir key f n [] = [] := by
  cases mode <;> cases dir <;> rfl

/-- R182 to R187: the recurrence of every mode and direction takes one step of R192's table per block, the next one with
the feed this one leaves. -/
theorem processBlocks_cons (x : Block) (xs : List Block) : processBlocks mode dir key f n (x :: xs) =
    (chainBlock mode dir key n x f).out :: processBlocks mode dir key (chainBlock mode dir key n x f).feed n xs := by
  cases mode <;> cases dir <;> rfl

/-- R186: mode none uses no feed. -/
theorem processBlocks_of_none (iv : Block) (xs : List Block) :
    processBlocks .none dir key f n xs = processBlocks .none dir key iv n xs := by
  cases dir <;> rfl

@[simp] theorem processBlocks_length (xs : List Block) : (processBlocks mode dir key f n xs).length = xs.length := by
  induction xs generalizing f with
  | nil => rw [processBlocks_nil]
  | cons x xs ih => rw [processBlocks_cons, List.length_cons, ih, List.length_cons]

/-- R192: the feed a list of blocks leaves. -/
def feedAfter (xs : List Block) : Block := xs.foldl (fun f x => (chainBlock mode dir key n x f).feed) f

/-- R182 to R187: the blocks after the first ones are processed with the feed those leave. -/
theorem processBlocks_append (xs ys : List Block) : processBlocks mode dir key f n (xs ++ ys) =
    processBlocks mode dir key f n xs ++ processBlocks mode dir key (feedAfter mode dir key f n xs) n ys := by
  induction xs generalizing f with
  | nil => rw [processBlocks_nil]; rfl
  | cons x xs ih => rw [List.cons_append, processBlocks_cons, ih, processBlocks_cons]; rfl

/-- R188: the decryption step, on the output of the encryption step of the same feed, gives the block back and leaves the
same feed. -/
theorem chainBlock_decrypt_encrypt (x : Block) :
    (chainBlock mode .decrypt key n (chainBlock mode .encrypt key n x f).out f).out = x ∧
    (chainBlock mode .decrypt key n (chainBlock mode .encrypt key n x f).out f).feed =
      (chainBlock mode .encrypt key n x f).feed := by
  cases mode with
  | none => exact ⟨decrypt_encrypt key n x, rfl⟩
  | cbc => exact ⟨by simp only [chainBlock, decrypt_encrypt, BitVec.xor_assoc, BitVec.xor_self, BitVec.xor_zero], rfl⟩
  | cfb => exact ⟨by simp only [chainBlock, ← BitVec.xor_assoc, BitVec.xor_self, BitVec.zero_xor], rfl⟩

/-- R188: block by block, decryption gives the blocks back. -/
theorem processBlocks_decrypt_encrypt (xs : List Block) :
    processBlocks mode .decrypt key f n (processBlocks mode .encrypt key f n xs) = xs := by
  induction xs generalizing f with
  | nil => rw [processBlocks_nil, processBlocks_nil]
  | cons x xs ih =>
    obtain ⟨hout, hfeed⟩ := chainBlock_decrypt_encrypt mode key f n x
    rw [processBlocks_cons, processBlocks_cons, hout, hfeed, ih]

end Chain

section Feedback

variable {mode : Mode} (hmode : mode ≠ .none) (key : Block) (n : Nat) {x x' f f' : Block}
include hmode

/-- R182, R184: under CBC and CFB encryption the next feed is the ciphertext block. -/
theorem chainBlock_encrypt_feed (x f : Block) :
    (chainBlock mode .encrypt key n x f).feed = (chainBlock mode .encrypt key n x f).out := by
  cases mode with
  | none => exact absurd rfl hmode
  | cbc | cfb => rfl

/-- R189: two plaintext blocks under one feed have two ciphertext blocks. -/
theorem chainBlock_encrypt_out_ne_of_block (h : x ≠ x') :
    (chainBlock mode .encrypt key n x f).out ≠ (chainBlock mode .encrypt key n x' f).out := by
  intro heq
  cases mode with
  | none => exact hmode rfl
  | cbc => exact h ((BitVec.xor_left_inj _).mp ((encrypt_bijective key n).injective heq))
  | cfb => exact h ((BitVec.xor_right_inj _).mp heq)

/-- R189: one plaintext block under two feeds has two ciphertext blocks. -/
theorem chainBlock_encrypt_out_ne_of_feed (h : f ≠ f') :
    (chainBlock mode .encrypt key n x f).out ≠ (chainBlock mode .encrypt key n x f').out := by
  intro heq
  cases mode with
  | none => exact hmode rfl
  | cbc => exact h ((BitVec.xor_right_inj _).mp ((encrypt_bijective key n).injective heq))
  | cfb => exact h ((encrypt_bijective key n).injective ((BitVec.xor_left_inj _).mp heq))

/-- R189: two ciphertext blocks are two feeds for the next block, so every later ciphertext block differs too. -/
theorem processBlocks_encrypt_ne {xs : List Block} {j : Nat} (hj : j ≤ xs.length)
    (hout : (chainBlock mode .encrypt key n x f).out ≠ (chainBlock mode .encrypt key n x' f').out) :
    (processBlocks mode .encrypt key f n (x :: xs))[j]? ≠ (processBlocks mode .encrypt key f' n (x' :: xs))[j]? := by
  rw [processBlocks_cons, processBlocks_cons]
  induction xs generalizing x x' f f' j with
  | nil =>
    obtain rfl := Nat.le_zero.mp hj
    simpa using hout
  | cons y ys ih =>
    cases j with
    | zero => simpa using hout
    | succ j =>
      rw [List.getElem?_cons_succ, List.getElem?_cons_succ, processBlocks_cons, processBlocks_cons]
      refine ih (Nat.le_of_succ_le_succ hj) (chainBlock_encrypt_out_ne_of_feed hmode key n ?_)
      rwa [chainBlock_encrypt_feed hmode, chainBlock_encrypt_feed hmode]

end Feedback

/-- Settles O35: the blocks before the changed one leave one feed; from there on the ciphertexts differ at every block. -/
theorem changedBlockChangesAllLaterCiphertext : Obligations.ChangedBlockChangesAllLaterCiphertext := by
  intro mode key iv n before after p p' hmode hne c c'
  have hlen (q : Block) :
      (encryptBlocks mode key iv n (before ++ q :: after)).length = before.length + 1 + after.length :=
    (processBlocks_length mode .encrypt key iv n _).trans (by simp; omega)
  have hbefore := processBlocks_length mode .encrypt key iv n before
  have hc : c = _ := processBlocks_append mode .encrypt key iv n before (p :: after)
  have hc' : c' = _ := processBlocks_append mode .encrypt key iv n before (p' :: after)
  refine ⟨hlen p, hlen p', fun j hj => ?_, fun j hj hlt => ?_⟩
  · rw [hc, hc', List.getElem?_append_left (hbefore ▸ hj), List.getElem?_append_left (hbefore ▸ hj)]
  · have hj' : j - before.length ≤ after.length := by
      have := hlt.trans_eq (hlen p)
      omega
    rw [hc, hc', List.getElem?_append_right (hbefore ▸ hj), List.getElem?_append_right (hbefore ▸ hj), hbefore]
    exact processBlocks_encrypt_ne hmode key n hj' (chainBlock_encrypt_out_ne_of_block hmode key n hne)

end Sys2Proof.Machine
end

section
/-! The bytes of a message and its blocks (R54, R180, R181), and the round trip of whole messages (R188). -/

namespace Sys2Proof

/-- R57: a vector resized to its own length is itself. -/
theorem Vec.resize_of_len_eq {v : Vec} {n : Nat} (h : v.len = n) : v.resize n = v := by
  refine Vec.ext_pos h.symm fun i hi => ?_
  rw [Vec.resize_pos]
  exact if_pos hi

/-- R54: a vector of whole bytes is made of its bytes. -/
theorem Vec.fromBytes_toBytes {v : Vec} (h : v.len % 8 = 0) : Vec.fromBytes v.toBytes = v := by
  have hlen : (Vec.fromBytes v.toBytes).len = v.len := by
    rw [Vec.fromBytes_len, Vec.toBytes_length]
    omega
  refine Vec.ext_pos hlen fun i hi => ?_
  have hbyte : i / 8 < (v.len + 7) / 8 := by omega
  have hbit : i % 8 < 8 := Nat.mod_lt _ (by decide)
  have hpos : 8 * (i / 8) + i % 8 = i := Nat.div_add_mod i 8
  rw [← hpos, Vec.fromBytes_pos _ (by rwa [Vec.toBytes_length]) hbit, v.toBytes_pos hbyte hbit]

end Sys2Proof

namespace Sys2Proof.Machine

open Sys2Proof

/-- R181: the block that eight bytes make. -/
def blockOfBytes (g : List Byte) : Block := resize 64 (Vec.fromBytes g).bits

/-- R181: the first eight bytes make the first block. -/
theorem blocksOf_append {g : List Byte} (hg : g.length = 8) (rest : List Byte) :
    blocksOf (g ++ rest) = blockOfBytes g :: blocksOf rest := by
  match g, hg with
  | [_, _, _, _, _, _, _, _], _ => rfl

theorem bytesOf_cons (b : Block) (bs : List Block) : bytesOf (b :: bs) = Vec.toBytes ⟨64, b⟩ ++ bytesOf bs :=
  List.flatMap_cons

/-- R54: a block has eight bytes. -/
theorem toBytes_block_length (b : Block) : (Vec.toBytes ⟨64, b⟩).length = 8 := by
  simp only [Vec.toBytes_length, Nat.reduceAdd, Nat.reduceDiv]

/-- R54: a block is made of its eight bytes. -/
theorem blockOfBytes_toBytes (b : Block) : blockOfBytes (Vec.toBytes ⟨64, b⟩) = b := by
  have hresize : (Vec.fromBytes (Vec.toBytes ⟨64, b⟩)).resize 64 = ⟨64, b⟩ := by
    rw [Vec.fromBytes_toBytes (by simp), Vec.resize_of_len_eq rfl]
  exact eq_of_heq (Vec.mk.inj hresize).2

/-- R54: the bytes of a block are the eight bytes it is made of. -/
theorem toBytes_blockOfBytes {g : List Byte} (hg : g.length = 8) : Vec.toBytes ⟨64, blockOfBytes g⟩ = g := by
  have hlen : (Vec.fromBytes g).len = 64 := by rw [Vec.fromBytes_len, hg]
  have hresize : (⟨64, blockOfBytes g⟩ : Vec) = Vec.fromBytes g := Vec.resize_of_len_eq hlen
  rw [hresize, Vec.toBytes_fromBytes]

/-- R181: eight bytes a block. -/
theorem bytesOf_length (bs : List Block) : (bytesOf bs).length = 8 * bs.length := by
  induction bs with
  | nil => rfl
  | cons b bs ih =>
    rw [bytesOf_cons, List.length_append, toBytes_block_length, ih, List.length_cons]
    omega

/-- R181: the blocks of the bytes of blocks are those blocks. -/
theorem blocksOf_bytesOf (bs : List Block) : blocksOf (bytesOf bs) = bs := by
  induction bs with
  | nil => rfl
  | cons b bs ih => rw [bytesOf_cons, blocksOf_append (toBytes_block_length b), blockOfBytes_toBytes, ih]

/-- R181: the bytes of the blocks of `8k` bytes are those bytes. -/
theorem bytesOf_blocksOf {k : Nat} {m : List Byte} (h : m.length = 8 * k) : bytesOf (blocksOf m) = m := by
  induction k generalizing m with
  | zero =>
    rw [List.eq_nil_of_length_eq_zero h]
    rfl
  | succ k ih =>
    have hg : (m.take 8).length = 8 := by rw [List.length_take]; omega
    have hrest : (m.drop 8).length = 8 * k := by rw [List.length_drop]; omega
    calc bytesOf (blocksOf m)
        = bytesOf (blocksOf (m.take 8 ++ m.drop 8)) := by rw [List.take_append_drop]
      _ = m.take 8 ++ m.drop 8 := by rw [blocksOf_append hg, bytesOf_cons, toBytes_blockOfBytes hg, ih hrest]
      _ = m := List.take_append_drop 8 m

/-- R180: a padded message is a whole number of blocks. -/
theorem padMessage_length_mod (m : List Byte) : (padMessage m).length % 8 = 0 := by
  rw [padMessage, List.length_append, List.length_replicate]
  omega

/-- R180: a message that is a whole number of blocks is not padded. -/
theorem padMessage_of_length_mod {m : List Byte} (h : m.length % 8 = 0) : padMessage m = m := by
  simp [padMessage, h]

/-- R188: decryption gives back the padded message. -/
theorem decryptMessage_encryptMessage (mode : Mode) (m : List Byte) (key iv : Block) (n : Nat) :
    decryptMessage mode (encryptMessage mode m key iv n) key iv n = some (padMessage m) := by
  have hwhole : (encryptMessage mode m key iv n).length % 8 = 0 := by
    rw [encryptMessage, bytesOf_length, Nat.mul_mod_right]
  have hpad : (padMessage m).length = 8 * ((padMessage m).length / 8) := by
    have := padMessage_length_mod m
    omega
  have hblocks := processBlocks_decrypt_encrypt mode key iv n (blocksOf (padMessage m))
  rw [processBlocks, processBlocks] at hblocks
  rw [decryptMessage, if_pos hwhole, encryptMessage, blocksOf_bytesOf, hblocks, bytesOf_blocksOf hpad]

/-- Settles O34: bytes and blocks undo each other, and so do the two block functions of a mode. -/
theorem messageRoundTrip : Obligations.MessageRoundTrip := by
  intro mode m key iv n
  have hround := decryptMessage_encryptMessage mode m key iv n
  exact ⟨hround, fun hm => by rw [hround, padMessage_of_length_mod hm]⟩

end Sys2Proof.Machine
end

section
/-! Runs of host inputs through the port (R9): what a list of inputs leaves of CORE and the words it reads, composed from
one rule per input. -/

namespace Sys2Proof

/-- R69: a 64-bit vector whose two data words are written is the block they are the words of, whatever it held. -/
theorem Vec.setWord_blockWords {v : Vec} (hlen : v.len = 64) (b : Block) :
    (v.setWord 0 (Vec.word ⟨64, b⟩ 0)).setWord 1 (Vec.word ⟨64, b⟩ 1) = ⟨64, b⟩ := by
  refine Vec.ext_pos hlen fun i hi => ?_
  have hi : i < 64 := hlen ▸ hi
  simp only [Vec.setWord_pos, Vec.setWord_len, hlen]
  rcases Nat.lt_or_ge i 32 with hlow | hhigh
  · rw [if_neg (by omega), if_pos (by omega), Vec.word_pos _ (h := by omega)]
    congr 1
    omega
  · rw [if_pos (by omega), Vec.word_pos _ (h := by omega)]
    congr 1
    omega

end Sys2Proof

namespace Sys2Proof.Machine

open Sys2Proof

/-- R26: the fields of the word that spells them. -/
theorem ctrlWordOf_fields (nr : BitVec 8) (mode : Mode) (dir : Dir) :
    (ctrlWordOf nr mode dir).extractLsb' 0 8 = nr ∧ (ctrlWordOf nr mode dir).extractLsb' 8 2 = mode.field ∧
      (ctrlWordOf nr mode dir).extractLsb' 10 1 = dir.field ∧ (ctrlWordOf nr mode dir).extractLsb' 11 21 = 0 := by
  rw [ctrlWordOf]
  refine ⟨?_, ?_, ?_, ?_⟩ <;> (apply BitVec.eq_of_getLsbD_eq; intro i hi; grind)

/-- R59: that word is legal with at least one round. -/
theorem writeCtrl_ctrlWordOf {nr : BitVec 8} (hnr : nr ≠ 0) (mode : Mode) (dir : Dir) (c : CoreState) :
    writeCtrl (ctrlWordOf nr mode dir) c = c.setCtrl nr mode dir := by
  obtain ⟨hnr', hmode, hdir, hzero⟩ := ctrlWordOf_fields nr mode dir
  have hlegal : ¬ ((0 : BitVec 21) ≠ 0 ∨ nr = 0) := by simpa using hnr
  simp only [writeCtrl, hnr', hmode, hdir, hzero, modeOf?_field, dirOf_field, if_neg hlegal]

/-- R9: from CORE state `c` the inputs `ts` run to their end, read the words `ws` and leave `d`, whatever the host issues
after them and has read before. -/
def Runs (ts : List HostInput) (c : CoreState) (ws : List Word) (d : CoreState) : Prop :=
  ∀ (rest : List HostInput) (obs : List Word),
    Sys2Proof.core.run ts.length (State.mk c (ts ++ rest) obs) = .next (State.mk d rest (obs ++ ws))

section Run

variable {M : Host.Core} {s t : M.State}

theorem run_succ_of_next (h : M.step s = .next t) (k : Nat) : M.run (k + 1) s = M.run k t := by
  rw [Host.Core.run, h]

/-- A run goes on from where its first steps end. -/
theorem run_add_of_next {m : Nat} (h : M.run m s = .next t) (n : Nat) : M.run (m + n) s = M.run n t := by
  induction m generalizing s with
  | zero =>
    cases h
    rw [Nat.zero_add]
  | succ m ih =>
    cases hstep : M.step s with
    | next u =>
      rw [run_succ_of_next hstep] at h
      rw [Nat.add_right_comm, run_succ_of_next hstep, ih h]
    | fault r => rw [Host.Core.run, hstep] at h; cases h
    | refused r => rw [Host.Core.run, hstep] at h; cases h

end Run

section Compose

variable {ts us : List HostInput} {c d e : CoreState} {ws vs : List Word}

theorem Runs.nil (c : CoreState) : Runs [] c [] c := fun rest obs => by
  rw [List.append_nil]
  rfl

/-- Two runs one after the other. -/
theorem Runs.append (h : Runs ts c ws d) (h' : Runs us d vs e) : Runs (ts ++ us) c (ws ++ vs) e := by
  intro rest obs
  rw [List.length_append, List.append_assoc, run_add_of_next (h (us ++ rest) obs), h' rest, List.append_assoc]

/-- One input is one step. -/
theorem Runs.of_step {t : HostInput}
    (h : ∀ s : State, s.core = c → ∀ rest, s.pending = t :: rest →
      step s = .next { s with core := d, pending := rest, observed := s.observed ++ ws }) : Runs [t] c ws d := by
  intro rest obs
  have hstep : Sys2Proof.core.step (State.mk c (t :: rest) obs) = .next (State.mk d rest (obs ++ ws)) :=
    h ⟨c, t :: rest, obs⟩ rfl rest rfl
  exact run_succ_of_next hstep 0

end Compose

/-- R85: the field that names `V[i]` reads it. -/
theorem srcVec_setVec_same (c : CoreState) (i : Fin 8) (v : Vec) : srcVec (c.setVec i v) (regNumOf i) = v := by
  rw [srcVec, regIdx_regNumOf, CoreState.setVec_vec_same]

/-- R192: the destination holds the output. -/
theorem storeBlockStep_vec_same (c : CoreState) (vd : RegNum) (b : BlockStep) :
    (storeBlockStep c vd b).vec (regIdx vd) = ⟨64, b.out⟩ :=
  CoreState.setVec_vec_same _ _ _

section Inputs

variable {c d : CoreState}

/-- R62: a read of a readable register returns its word. -/
theorem runs_read {idx : PortIndex} {w : Word} (hw : readReg c (portReg idx) = some w) : Runs [.read idx] c [w] c :=
  .of_step fun s hs _ hp => by
    subst hs
    exact step_read hp hw

/-- R69: the two data words of `V[i]` read back. -/
theorem runs_readBlock {i : Fin 8} {b : Block} (hb : c.vec i = ⟨64, b⟩) : Runs (readBlock i) c (blockWords b) c := by
  have hword (j : Fin 4) : readReg c (portReg (vdataIdx i j)) = some (Vec.word ⟨64, b⟩ j.val) := by
    rw [portReg_vdataIdx, readReg, hb]
  exact (runs_read (hword 0)).append (runs_read (hword 1))

variable (hrun : c.fault = none)
include hrun

/-- R57 to R59: a write of a read-write register. -/
theorem runs_write {idx : PortIndex} {r : PortReg} {w : Word} (hidx : portReg idx = r) (hr : r.access = .readWrite) :
    Runs [.write idx w] c [] (writeData r w c) :=
  .of_step fun s hs _ hp => by
    subst hs
    rw [step_writeData hp hrun hidx hr, List.append_nil]

/-- R60: a legal command whose checks pass. -/
theorem runs_issue {i : Instr} (hwf : i.WellFormed) (hok : bodyOf i c = .ok d) : Runs [issue i] c [] d :=
  .of_step fun s hs rest hp => by
    subst hs
    rw [stepRunsDecodedCommand s _ i rest hp (decodeOfEncode i hwf), List.append_nil]
    exact exec_of_body_ok (s := s.withPending rest) hrun hwf hok

/-- R57: a length within the capacity. -/
theorem runs_writeVlen (i : Fin 8) {w : Word} (hw : w.toNat ≤ 128) :
    Runs [.write (vlenIdx i) w] c [] (c.setVec i ((c.vec i).resize w.toNat)) :=
  writeVlen_of_le hw i c ▸ runs_write hrun (portReg_vlenIdx i) rfl

/-- R58: a data word. -/
theorem runs_writeVdata (i : Fin 8) (j : Fin 4) (w : Word) :
    Runs [.write (vdataIdx i j) w] c [] (c.setVec i ((c.vec i).setWord j.val w)) :=
  runs_write hrun (portReg_vdataIdx i j) rfl

/-- R69: a block loaded into `V[i]`. -/
theorem runs_loadBlock (i : Fin 8) (b : Block) : Runs (loadBlock i b) c [] (c.setVec i ⟨64, b⟩) := by
  have hlen := runs_writeVlen hrun i (w := 64) (by decide)
  have hword0 (v : Vec) := runs_writeVdata (c := c.setVec i v) hrun i 0 (Vec.word ⟨64, b⟩ 0)
  have hword1 (v : Vec) := runs_writeVdata (c := c.setVec i v) hrun i 1 (Vec.word ⟨64, b⟩ 1)
  simp only [CoreState.setVec_vec_same, CoreState.setVec_setVec] at hword0 hword1
  have hload := hlen.append ((hword0 _).append (hword1 _))
  rwa [Fin.val_zero, Fin.val_one, Vec.setWord_blockWords rfl] at hload

/-- R59: `CTRL` written with the word that spells its three fields. -/
theorem runs_writeCtrl {nr : BitVec 8} (hnr : nr ≠ 0) (mode : Mode) (dir : Dir) :
    Runs [.write ctrlIdx (ctrlWordOf nr mode dir)] c [] (c.setCtrl nr mode dir) :=
  writeCtrl_ctrlWordOf hnr mode dir c ▸ runs_write hrun portReg_ctrlIdx rfl

/-- R69: a block loaded into `V[i]` and a legal command whose checks then pass. -/
theorem runs_loadBlock_issue (i : Fin 8) {b : Block} {cmd : Instr} (hwf : cmd.WellFormed)
    (hok : bodyOf cmd (c.setVec i ⟨64, b⟩) = .ok d) : Runs (loadBlock i b ++ [issue cmd]) c [] d :=
  (runs_loadBlock hrun i b).append (runs_issue (c := c.setVec i _) hrun hwf hok)

/-- R133, the key loaded through `V[i]`. -/
theorem runs_loadKey (i : Fin 8) (k : Block) :
    Runs (loadBlock i k ++ [issue (.ldkey (regNumOf i))]) c [] ((c.setVec i ⟨64, k⟩).setKey k) := by
  refine runs_loadBlock_issue hrun i (cmd := .ldkey (regNumOf i)) (regNumOf_valid i) ?_
  rw [bodyOf, key64Operand_of_len _ _ (srcVec_setVec_same c i _), Except.map]

/-- R190, the IV loaded through `V[i]`. -/
theorem runs_loadIv (i : Fin 8) (x : Block) :
    Runs (loadBlock i x ++ [issue (.ldiv (regNumOf i))]) c [] ((c.setVec i ⟨64, x⟩).setIv x) := by
  refine runs_loadBlock_issue hrun i (cmd := .ldiv (regNumOf i)) (regNumOf_valid i) ?_
  rw [bodyOf, key64Operand_of_len _ _ (srcVec_setVec_same c i _), Except.map]

/-- R191. -/
theorem runs_mstart : Runs [issue .mstart] c [] ((c.setFeed c.iv).setBlkcnt 0) := runs_issue hrun rfl rfl

end Inputs

end Sys2Proof.Machine
end

section
/-! The host's sequence for a message (R193): its setup, its blocks and the words read back (R69). -/

namespace Sys2Proof.Machine

open Sys2Proof

/-- CORE after one block of a message has gone through `V[x]` and `V[y]` (R193 step 5). -/
def afterBlock (x y : Fin 8) (b : Block) (c : CoreState) : CoreState :=
  storeBlockStep (c.setVec x ⟨64, b⟩) (regNumOf y) (chainBlock c.mode c.dir c.key c.nr.toNat b c.feed)

/-- CORE with the parameters of a message set and its first block to come (R193 steps 1 to 4). In mode none the feed is
not used. -/
structure MessageBegun (c : CoreState) (mode : Mode) (dir : Dir) (nr : BitVec 8) (key iv : Block) : Prop where
  fault_eq : c.fault = none
  mode_eq : c.mode = mode
  dir_eq : c.dir = dir
  nr_eq : c.nr = nr
  key_eq : c.key = key
  feed_eq : mode ≠ .none → c.feed = iv
  blkcnt_eq : c.blkcnt = 0#32

section Message

variable {c : CoreState} (hrun : c.fault = none)
include hrun

/-- R193 steps 1 to 4. -/
theorem runs_setupInputs (a b : Fin 8) (mode : Mode) (dir : Dir) {nr : BitVec 8} (hnr : nr ≠ 0) (key iv : Block) :
    ∃ d, Runs (setupInputs a b mode dir nr key iv) c [] d ∧ MessageBegun d mode dir nr key iv := by
  have hctrl := runs_writeCtrl (c := (c.setVec a ⟨64, key⟩).setKey key) hrun hnr mode dir
  have hkey := (runs_loadKey hrun a key).append hctrl
  rw [List.append_assoc, List.singleton_append] at hkey
  generalize hk : ((c.setVec a ⟨64, key⟩).setKey key).setCtrl nr mode dir = k at hkey
  have hrunk : k.fault = none := hk ▸ hrun
  by_cases hmode : mode = .none
  · have hall := (hkey.append (.nil k)).append (runs_mstart hrunk)
    rw [setupInputs, if_pos hmode]
    subst hk
    exact ⟨_, hall, hrun, rfl, rfl, rfl, rfl, fun h => absurd hmode h, rfl⟩
  · have hall := (hkey.append (runs_loadIv hrunk b iv)).append (runs_mstart (c := (k.setVec b _).setIv iv) hrunk)
    rw [setupInputs, if_neg hmode]
    subst hk
    exact ⟨_, hall, hrun, rfl, rfl, rfl, rfl, fun _ => rfl, rfl⟩

/-- R193 step 5 for one block: the words read back are those of the block's output. -/
theorem runs_blockInputs (x y : Fin 8) (b : Block) : Runs (blockInputs x y b) c
    (blockWords (chainBlock c.mode c.dir c.key c.nr.toNat b c.feed).out) (afterBlock x y b c) := by
  have hwf : Instr.WellFormed (.mblk (regNumOf y) (regNumOf x)) :=
    Bool.and_eq_true_iff.mpr ⟨regNumOf_valid y, regNumOf_valid x⟩
  have hbody : bodyOf (.mblk (regNumOf y) (regNumOf x)) (c.setVec x ⟨64, b⟩) = .ok (afterBlock x y b c) := by
    rw [bodyOf, blockOperand_of_len _ _ (srcVec_setVec_same c x _), Except.map]
    rfl
  have hout : (afterBlock x y b c).vec (regIdx (regNumOf y)) = _ := storeBlockStep_vec_same _ _ _
  rw [regIdx_regNumOf] at hout
  exact (runs_loadBlock_issue hrun x hwf hbody).append (runs_readBlock hout)

/-- R193 step 5: block for block, the words read back are those of the mode's recurrence, and `BLKCNT` counts. -/
theorem runs_blocks (x y : Fin 8) (bs : List Block) : ∃ d, Runs (bs.flatMap (blockInputs x y)) c
    ((processBlocks c.mode c.dir c.key c.feed c.nr.toNat bs).flatMap blockWords) d ∧ d.fault = none ∧
      d.blkcnt = c.blkcnt + BitVec.ofNat 32 bs.length := by
  induction bs generalizing c with
  | nil =>
    rw [processBlocks_nil]
    exact ⟨c, .nil c, hrun, by simp⟩
  | cons b bs ih =>
    obtain ⟨d, hd, hfault, hcount⟩ := ih (c := afterBlock x y b c) hrun
    rw [processBlocks_cons, List.flatMap_cons, List.flatMap_cons]
    refine ⟨d, (runs_blockInputs hrun x y b).append hd, hfault, ?_⟩
    have hstep : (afterBlock x y b c).blkcnt = c.blkcnt + 1#32 := rfl
    rw [hcount, hstep, List.length_cons, Nat.add_comm, BitVec.ofNat_add, BitVec.add_assoc]

end Message

/-- R187, R193: after the setup the blocks are processed by the message's own block function. -/
theorem MessageBegun.processBlocks_eq {c : CoreState} {mode : Mode} {dir : Dir} {nr : BitVec 8} {key iv : Block}
    (h : MessageBegun c mode dir nr key iv) (bs : List Block) :
    processBlocks c.mode c.dir c.key c.feed c.nr.toNat bs = processBlocks mode dir key iv nr.toNat bs := by
  rw [h.mode_eq, h.dir_eq, h.key_eq, h.nr_eq]
  by_cases hmode : mode = .none
  · rw [hmode]
    exact processBlocks_of_none dir key c.feed nr.toNat iv bs
  · rw [h.feed_eq hmode]

/-- R193, R69: the whole sequence, the `STATUS` read at its end included. -/
theorem runs_messageInputs {c : CoreState} (hrun : c.fault = none) (a b x y : Fin 8) (mode : Mode) (dir : Dir)
    {nr : BitVec 8} (hnr : nr ≠ 0) (key iv : Block) (bs : List Block) :
    ∃ d, Runs (messageInputs a b x y mode dir nr key iv bs) c
      ((processBlocks mode dir key iv nr.toNat bs).flatMap blockWords ++ [0]) d ∧ d.fault = none ∧
        d.blkcnt = BitVec.ofNat 32 bs.length := by
  obtain ⟨k, hsetup, hbegun⟩ := runs_setupInputs hrun a b mode dir hnr key iv
  obtain ⟨d, hblocks, hfault, hcount⟩ := runs_blocks hbegun.fault_eq x y bs
  rw [hbegun.processBlocks_eq] at hblocks
  rw [hbegun.blkcnt_eq, BitVec.zero_add] at hcount
  have hstatus : readReg d (portReg statusIdx) = some 0 := by
    rw [portReg_statusIdx, readReg, statusWord, hfault]
    rfl
  exact ⟨d, (hsetup.append hblocks).append (runs_read hstatus), hfault, hcount⟩

/-- Settles O36: the run of the whole sequence, and R69's unpacking of the words it reads. -/
theorem hostSequenceComputesMessage : Obligations.HostSequenceComputesMessage := by
  intro s a b x y mode dir nr key iv bs rest hrun hnr hp
  obtain ⟨d, hd, hfault, hcount⟩ := runs_messageInputs hrun a b x y mode dir hnr key iv bs
  have hs : s = ⟨s.core, messageInputs a b x y mode dir nr key iv bs ++ rest, s.observed⟩ := by rw [← hp]
  refine ⟨⟨d, rest, _⟩, _, hs ▸ hd rest s.observed, rfl, hfault, hcount, (List.append_assoc ..).symm, rfl, ?_, ?_⟩
  · exact blocksOfWords_flatMap _
  · exact bytesOfWords_flatMap _

end Sys2Proof.Machine
end

section
/-! Faults one at a time (R211 to R213): which command faults, that fault entry is the whole effect of a faulting input,
and that `FAULTINFO` stays a true record of the fault beside its code. -/

namespace Sys2Proof.Machine

open Sys2Proof

/-- Settles O51: the body of the command fails exactly as its row says, and the frame records its word. -/
theorem commandFaultsAsTabulated : Obligations.CommandFaultsAsTabulated := by
  intro i s t hrun hwf hexec
  rcases bodyOf_fault i s.core with ⟨hnone, d, hok⟩ | ⟨k, hsome, _, herr⟩
  · cases (exec_of_body_ok hrun hwf hok).symm.trans hexec
    obtain ⟨hfault, _⟩ := bodyOf_ok hok
    have hclear : d.fault = none := hfault.trans hrun
    exact ⟨hclear.trans hnone.symm, fun hne => absurd hclear hne⟩
  · cases (exec_of_body_error hrun hwf herr).symm.trans hexec
    exact ⟨hsome.symm, fun _ => rfl⟩

/-- R212, R213: of all an input can do to a running CORE, only fault entry halts it, and it writes the two fault
registers alone. -/
theorem Effect.precise {c d : CoreState} {t : HostInput} (h : Effect c t d) (hrun : c.fault = none)
    (hfault : d.fault ≠ none) : d = { c with fault := d.fault, faultInfo := d.faultInfo } := by
  cases h with
  | raise k info => rw [CoreState.raise_running _ _ _ (CoreState.halted_of_none hrun)]
  | command _ hd =>
    obtain ⟨_, _, _, hsame, _⟩ := hd.ctrl_fault_eq
    exact absurd (hsame.trans hrun) hfault
  | unchanged | ctrl | vlen | vdata => exact absurd hrun hfault
  | softReset | hardReset => exact absurd rfl hfault

/-- R53, R62: a `RegRead` that changes CORE returned 0. -/
theorem regRead_observed_of_core_ne {idx : PortIndex} {s : State} (hne : (regRead idx s).core ≠ s.core) :
    (regRead idx s).observed = s.observed ++ [0] := by
  rcases regRead_cases idx s with ⟨w, _, h⟩ | ⟨_, h⟩ <;> rw [h] at hne ⊢
  · exact absurd rfl hne
  · rfl

/-- Settles O50: with no input pending CORE keeps running; otherwise the effect of the input is fault entry, and a read
that enters the fault state returned 0. -/
theorem faultsArePrecise : Obligations.FaultsArePrecise := by
  intro s t hrun hstep hfault
  rcases hp : s.pending with _ | ⟨input, rest⟩
  case nil =>
    cases (step_nil s hp).symm.trans hstep
    exact absurd hrun hfault
  case cons =>
    refine ⟨(step_effect hp hstep).precise hrun hfault, fun idx rest' hread => ?_⟩
    cases (step_regRead (hp.trans hread)).symm.trans hstep
    exact regRead_observed_of_core_ne (s := s.withPending rest') fun he => hfault ((congrArg _ he).trans hrun)

section Record

variable {c d : CoreState} {i : Instr} {k : FaultKind} {w : Word}

/-- R211: no check of a command's own raises `IllegalOperation`. -/
theorem ownFault_ne_illegalOperation (i : Instr) : ownFault i ≠ some .illegalOperation := by
  cases i <;> simp [ownFault]

/-- R211: a command's check that fails raises the command's one kind. -/
theorem ownFault_of_bodyOf_error (h : bodyOf i c = .error k) : ownFault i = some k := by
  rcases bodyOf_fault i c with ⟨_, d, hok⟩ | ⟨k', _, hown, herr⟩
  · cases hok.symm.trans h
  · cases herr.symm.trans h
    exact hown

/-- R212: the word of a legal command is a true record of the kind it can raise. -/
theorem faultRecordSound_of_ownFault (hfault : c.fault = some k) (hdec : decode c.faultInfo = .ok i)
    (hown : ownFault i = some k) : c.faultRecordSound := by
  rw [CoreState.faultRecordSound, hfault]
  cases k with
  | illegalOperation => exact absurd hown (ownFault_ne_illegalOperation i)
  | capacityExceeded => exact .inl ⟨i, hdec, hown⟩
  | lengthMismatch | invalidBlockLength | indexOutOfRange => exact ⟨i, hdec, hown⟩

/-- The record is about the two fault registers alone. -/
theorem faultRecordSound_congr (hfault : d.fault = c.fault) (hinfo : d.faultInfo = c.faultInfo)
    (hc : c.faultRecordSound) : d.faultRecordSound := by
  rwa [CoreState.faultRecordSound, hfault, hinfo]

/-- R212, R214: fault entry keeps the first fault's record, or makes its own. -/
theorem faultRecordSound_raise (hc : c.faultRecordSound)
    (hnew : CoreState.faultRecordSound { c with fault := some k, faultInfo := w }) :
    (c.raise k w).faultRecordSound := by
  cases h : c.halted with
  | true => rwa [c.raise_halted k w h]
  | false => rwa [c.raise_running k w h]

/-- R88: `IllegalOperation` with a word that is no command is a true record. -/
theorem faultRecordSound_raise_illegal {e : DecodeError} (hc : c.faultRecordSound) (hdec : decode w = .error e) :
    (c.raise .illegalOperation w).faultRecordSound :=
  faultRecordSound_raise hc ⟨e, hdec⟩

/-- R28, R53, R59: and so it is with the record of a register access. -/
theorem faultRecordSound_raise_access (hc : c.faultRecordSound) (wr : Bool) (idx : PortIndex) :
    (c.raise .illegalOperation (accessInfo wr idx)).faultRecordSound :=
  faultRecordSound_raise_illegal hc (decode_accessInfo wr idx)

end Record

section StepRecord

variable {s t : State} (hs : s.core.faultRecordSound)

include hs

/-- R88, R212: an instruction keeps the fault registers or records its own word, legal with the kind its check raises,
no command with `IllegalOperation`. -/
theorem exec_faultRecordSound {i : Instr} (h : exec i s = .next t) : t.core.faultRecordSound := by
  rw [exec_eq_command] at h
  rcases command_cases s i (bodyOf i) with
    ⟨_, hc⟩ | ⟨_, _, d, hok, hc⟩ | ⟨_, hwf, k, herr, hc⟩ | ⟨hrun, hwf, hc⟩ <;> cases hc.symm.trans h
  · exact hs
  · obtain ⟨hfault, hinfo, _⟩ := bodyOf_ok hok
    exact faultRecordSound_congr hfault hinfo hs
  · exact faultRecordSound_raise hs
      (faultRecordSound_of_ownFault rfl (decodeOfEncode i hwf) (ownFault_of_bodyOf_error herr))
  · obtain ⟨_, e, hdec⟩ := registerFieldAboveSevenFaults i s ((CoreState.halted_eq_false_iff _).mp hrun)
      (ne_true_of_eq_false hwf)
    exact faultRecordSound_raise_illegal hs hdec

/-- R60, R88: a word written to `CMD` keeps the record true. -/
theorem runWord_faultRecordSound {w : Word} (h : runWord w s = .next t) : t.core.faultRecordSound := by
  rcases runWord_cases w s with ⟨i, _, hrun⟩ | ⟨e, hdec, hrun⟩
  · exact exec_faultRecordSound hs (hrun.symm.trans h)
  · cases hrun.symm.trans h
    exact faultRecordSound_raise_illegal hs hdec

/-- R57 to R61: a `RegWrite` keeps the record true. -/
theorem regWrite_faultRecordSound {idx : PortIndex} {w : Word} (h : regWrite idx w s = .next t) :
    t.core.faultRecordSound := by
  rcases regWrite_cases idx w s with
    ⟨_, hw⟩ | ⟨_, _, hw⟩ | ⟨_, _, hw⟩ | ⟨_, _, hw⟩ | ⟨_, i, _, hw⟩ | ⟨_, i, j, _, hw⟩ | ⟨_, _, hw⟩
  case inr.inr.inl => exact runWord_faultRecordSound hs (hw.symm.trans h)
  all_goals cases hw.symm.trans h
  · exact trivial
  · exact hs
  · rcases writeCtrl_cases w s.core with ⟨m, _, _, _, hc⟩ | hc <;> rw [State.withCore_core, hc]
    · exact hs
    · exact faultRecordSound_raise_access hs true ctrlIdx
  · rcases writeVlen_cases i w s.core with ⟨_, hc⟩ | ⟨_, hc⟩ <;> rw [State.withCore_core, hc]
    · exact hs
    · exact faultRecordSound_raise hs (.inr ⟨i, rfl⟩)
  · exact hs
  · exact faultRecordSound_raise_access hs true idx

/-- R53, R62: a `RegRead` keeps the record true. -/
theorem regRead_faultRecordSound (idx : PortIndex) : (regRead idx s).core.faultRecordSound := by
  rcases regRead_cases idx s with ⟨w, _, hr⟩ | ⟨_, hr⟩ <;> rw [hr]
  · exact hs
  · exact faultRecordSound_raise_access hs false idx

end StepRecord

/-- Settles O55: every input keeps the record true, a reset by clearing the fault. -/
theorem stepKeepsFaultRecord : Obligations.StepKeepsFaultRecord := by
  intro s t hs hstep
  rcases hp : s.pending with _ | ⟨_ | ⟨idx, w⟩ | _, rest⟩
  case nil =>
    cases (step_nil s hp).symm.trans hstep
    exact hs
  case cons.read idx =>
    cases (step_regRead hp).symm.trans hstep
    exact regRead_faultRecordSound (s := s.withPending rest) hs idx
  case cons.write => exact regWrite_faultRecordSound (s := s.withPending rest) hs ((step_write hp).symm.trans hstep)
  case cons.hardReset =>
    cases (step_cons s hp).symm.trans hstep
    exact trivial

end Sys2Proof.Machine
end

section
/-! Two machines that differ in bit values only (R210): the length a command gives its destination, its check and every
access of the port look at vector lengths and the fault registers alone, so the two stay alike. -/

namespace Sys2Proof.Machine

open Sys2Proof

section Lengths

variable {c d : CoreState}

theorem CoreState.sameLengths_refl (c : CoreState) : c.sameLengths c := ⟨fun _ => rfl, rfl, rfl⟩

theorem CoreState.sameLengths.srcVec_len (h : c.sameLengths d) (r : RegNum) :
    (srcVec c r).len = (srcVec d r).len := by
  obtain ⟨hlen, _⟩ := h
  exact hlen (regIdx r)

theorem CoreState.sameLengths.halted_eq (h : c.sameLengths d) : c.halted = d.halted := by
  obtain ⟨_, hfault, _⟩ := h
  rw [CoreState.halted, hfault, CoreState.halted]

/-- R21: two writes of one vector register with vectors of one length. -/
theorem CoreState.sameLengths.setVec (h : c.sameLengths d) (i : Fin 8) {x y : Vec} (hxy : x.len = y.len) :
    (c.setVec i x).sameLengths (d.setVec i y) := by
  obtain ⟨hlen, hfault, hinfo⟩ := h
  refine ⟨fun j => ?_, hfault, hinfo⟩
  by_cases hj : j = i
  · rw [hj, CoreState.setVec_vec_same, CoreState.setVec_vec_same, hxy]
  · rw [CoreState.setVec_vec_ne _ _ _ _ hj, CoreState.setVec_vec_ne _ _ _ _ hj, hlen]

/-- R212: the same fault entry. -/
theorem CoreState.sameLengths.raise (h : c.sameLengths d) (k : FaultKind) (w : Word) :
    (c.raise k w).sameLengths (d.raise k w) := by
  have hhalted := h.halted_eq
  cases hc : c.halted with
  | true => rwa [c.raise_halted k w hc, d.raise_halted k w (hhalted ▸ hc)]
  | false =>
    obtain ⟨hlen, _⟩ := h
    rw [c.raise_running k w hc, d.raise_running k w (hhalted ▸ hc)]
    exact ⟨hlen, rfl, rfl⟩

/-- R210, R211: the table of faults reads the lengths of the operands and no bit of theirs. -/
theorem CoreState.sameLengths.operandFault_eq (h : c.sameLengths d) (i : Instr) :
    operandFault i c = operandFault i d := by
  cases i <;> simp only [operandFault, h.srcVec_len]

/-- R57 to R59: a data write looks at the word written and at no bit of CORE's. -/
theorem CoreState.sameLengths.of_writeData (h : c.sameLengths d) (r : PortReg) (w : Word) :
    (writeData r w c).sameLengths (writeData r w d) := by
  have ⟨hlen, _⟩ := h
  cases r with
  | ctrl =>
    by_cases hw : ctrlLegal w
    · obtain ⟨m, _, hset⟩ := writeCtrl_of_legal hw
      simp only [writeData, hset]
      exact h
    · simp only [writeData, writeCtrl_of_not_legal hw]
      exact h.raise _ _
  | vlen i =>
    rcases Nat.lt_or_ge 128 w.toNat with hw | hw
    · simp only [writeData, writeVlen_of_gt hw]
      exact h.raise _ _
    · simp only [writeData, writeVlen_of_le hw]
      exact h.setVec i rfl
  | vdata i j => exact h.setVec i (hlen i)
  | _ => exact h

end Lengths

section ResultLength

variable {c d : CoreState} {i : Instr} {vd : RegNum}

/-- R106: the length of a slice. -/
theorem len_of_slice {a v : Vec} {start stop : Nat} (h : a.slice start stop = .ok v) : v.len = stop - start := by
  rcases Vec.slice_cases a start stop with ⟨_, _, x, hok, hlen, _⟩ | ⟨_, herr⟩
  · cases hok.symm.trans h
    exact hlen
  · cases herr.symm.trans h

/-- R111, R115: the capacity check passes its vector on. -/
theorem eq_of_checkCapacity {x v : Vec} (h : checkCapacity x = .ok v) : v = x := by
  rcases checkCapacity_cases x with ⟨_, hok⟩ | ⟨_, herr⟩
  · cases hok.symm.trans h
    rfl
  · cases herr.symm.trans h

/-- The length a command that completes gives its destination; 0 stands where there is none. -/
def resultLen (i : Instr) (c : CoreState) : Nat :=
  match i with
  | .vzero _ len => len.toNat
  | .vshr _ va _ | .vshl _ va _ | .vxor _ va _ | .frnd _ va _ => (srcVec c va).len
  | .vcat _ va vb => (srcVec c va).len + (srcVec c vb).len
  | .vslice _ _ start stop => stop.toNat - start.toNat
  | .subkey _ _ => 32
  | .bjoin _ | .enc _ _ | .dec _ _ | .mblk _ _ => 64
  | .ldkey _ | .bsplit _ | .rnde _ | .rndd _ | .ldiv _ | .mstart => 0

/-- R117: a destination takes the length of the vector computed. -/
theorem len_of_storeVec {x : Except FaultKind Vec} {n : Nat} (h : storeVec c vd x = .ok d)
    (hx : ∀ v, x = .ok v → v.len = n) : (d.vec (regIdx vd)).len = n := by
  obtain ⟨v, hv, rfl⟩ := exceptMap_eq_ok h
  rw [writeVd, CoreState.setVec_vec_same, hx v hv]

/-- R111 to R116, R134, R135, R162 to R164, R192: each command that has a destination gives it that length. -/
theorem len_of_bodyOf (h : bodyOf i c = .ok d) (hdest : destOf i = some vd) :
    (d.vec (regIdx vd)).len = resultLen i c := by
  cases i <;> cases hdest <;> simp only [bodyOf] at h
  case vzero | vcat => exact len_of_storeVec h fun _ hv => congrArg Vec.len (eq_of_checkCapacity hv)
  case vshr | vshl | subkey => exact len_of_storeVec h fun _ hv => by cases hv; rfl
  case vxor => exact len_of_storeVec h fun _ hv => len_of_xor hv
  case frnd => exact len_of_storeVec h fun _ hv => len_of_vecRoundF hv
  case vslice => exact len_of_storeVec h fun _ hv => len_of_slice hv
  case bjoin =>
    cases h
    exact congrArg Vec.len (CoreState.setVec_vec_same ..)
  case enc | dec | mblk =>
    obtain ⟨b, _, rfl⟩ := exceptMap_eq_ok h
    exact congrArg Vec.len (CoreState.setVec_vec_same ..)

/-- R210: that length depends on the lengths of the sources alone. -/
theorem CoreState.sameLengths.resultLen_eq (h : c.sameLengths d) (i : Instr) : resultLen i c = resultLen i d := by
  cases i <;> simp only [resultLen, h.srcVec_len]

/-- R210: one command completed by two like machines leaves them alike: the destination takes one length, and the other
vectors and the fault registers stay. -/
theorem CoreState.sameLengths.of_bodyOf {c' d' : CoreState} (h : c.sameLengths d) (hc : bodyOf i c = .ok c')
    (hd : bodyOf i d = .ok d') : c'.sameLengths d' := by
  have hwc := bodyOf_written hc
  have hwd := bodyOf_written hd
  obtain ⟨_, _, _, hfault, hinfo⟩ := hwc.ctrl_fault_eq
  obtain ⟨_, _, _, hfault', hinfo'⟩ := hwd.ctrl_fault_eq
  have hres := h.resultLen_eq i
  obtain ⟨hlen, hf, hi⟩ := h
  refine ⟨fun j => ?_, by rw [hfault, hfault', hf], by rw [hinfo, hinfo', hi]⟩
  cases hdest : destOf i with
  | none => rw [hwc.vec_eq hdest, hwd.vec_eq hdest, hlen]
  | some vd =>
    by_cases hj : j = regIdx vd
    · rw [hj, len_of_bodyOf hc hdest, len_of_bodyOf hd hdest, hres]
    · rw [hwc.vec_eq_of_ne hdest hj, hwd.vec_eq_of_ne hdest hj, hlen]

end ResultLength

/-- The CORE states two results leave agree on everything but bit values. -/
def SameLengthsNext (x y : Result) : Prop := ∀ s t, x = .next s → y = .next t → s.core.sameLengths t.core

theorem SameLengthsNext.of_next {x y : Result} {s t : State} (hx : x = .next s) (hy : y = .next t)
    (h : s.core.sameLengths t.core) : SameLengthsNext x y := by
  intro s' t' hs ht
  cases hx.symm.trans hs
  cases hy.symm.trans ht
  exact h

/-- R52: a register is one of the two that only act when written, or holds data, or cannot be written. -/
theorem portReg_write_cases (r : PortReg) :
    r = .srst ∨ r = .cmd ∨ r.access = .readWrite ∨ r.access.writable = false := by
  cases r <;> simp [PortReg.access, Access.writable]

section Inputs

variable {s t : State} (h : s.core.sameLengths t.core)

include h

/-- R210: an instruction is ignored, refused, fails its check or completes on both machines alike. -/
theorem sameLengthsNext_exec (i : Instr) : SameLengthsNext (exec i s) (exec i t) := by
  have hhalted := h.halted_eq
  rw [exec_eq_command, exec_eq_command]
  cases hs : s.core.halted with
  | true => exact .of_next (command_halted s i _ hs) (command_halted t i _ (hhalted ▸ hs)) h
  | false =>
    have ht : t.core.halted = false := hhalted ▸ hs
    cases hwf : i.wellFormed with
    | false => exact .of_next (command_illFormed s i _ hs hwf) (command_illFormed t i _ ht hwf) (h.raise _ _)
    | true =>
      have hsame := h.operandFault_eq i
      rcases bodyOf_fault i s.core with ⟨hfs, c, hc⟩ | ⟨k, hfs, _, hc⟩ <;>
        rcases bodyOf_fault i t.core with ⟨hft, d, hd⟩ | ⟨l, hft, _, hd⟩ <;> rw [hfs, hft] at hsame <;>
        cases hsame
      · exact .of_next (command_ok s i _ hs hwf hc) (command_ok t i _ ht hwf hd) (h.of_bodyOf hc hd)
      · exact .of_next (command_error s k i _ hs hwf hc) (command_error t k i _ ht hwf hd) (h.raise _ _)

/-- R88: a word is a command on both machines or on neither. -/
theorem sameLengthsNext_runWord (w : Word) : SameLengthsNext (runWord w s) (runWord w t) := by
  cases hdec : decode w with
  | ok i =>
    rw [runWord_of_decode hdec, runWord_of_decode hdec]
    exact sameLengthsNext_exec h i
  | error e => exact .of_next (runWord_of_decode_error hdec s) (runWord_of_decode_error hdec t) (h.raise _ _)

/-- R53, R57 to R61: a `RegWrite` does the same kind of thing on both machines. -/
theorem sameLengthsNext_regWrite (idx : PortIndex) (w : Word) :
    SameLengthsNext (regWrite idx w s) (regWrite idx w t) := by
  have hhalted := h.halted_eq
  by_cases hsrst : portReg idx = .srst
  · exact .of_next (regWrite_srst hsrst) (regWrite_srst hsrst) (CoreState.sameLengths_refl _)
  cases hs : s.core.halted with
  | true => exact .of_next (regWrite_of_halted hs hsrst) (regWrite_of_halted (hhalted ▸ hs) hsrst) h
  | false =>
    have ht : t.core.halted = false := hhalted ▸ hs
    rcases portReg_write_cases (portReg idx) with hr | hr | hr | hr
    · exact absurd hr hsrst
    · rw [regWrite_cmd hs hr, regWrite_cmd ht hr]
      exact sameLengthsNext_runWord h w
    · exact .of_next (regWrite_of_readWrite w hs hr) (regWrite_of_readWrite w ht hr) (h.of_writeData _ w)
    · exact .of_next (regWrite_of_not_writable hs hr) (regWrite_of_not_writable ht hr) (h.raise _ _)

/-- R53, R62: an index is readable on both machines or on neither. -/
theorem sameLengths_regRead (idx : PortIndex) : (regRead idx s).core.sameLengths (regRead idx t).core := by
  cases hr : (portReg idx).access.readable with
  | true =>
    obtain ⟨w, hw⟩ := readReg_of_readable (c := s.core) hr
    obtain ⟨v, hv⟩ := readReg_of_readable (c := t.core) hr
    rw [regRead_of_readReg hw, regRead_of_readReg hv]
    exact h
  | false =>
    rw [regRead_of_not_readable hr, regRead_of_not_readable hr]
    exact h.raise _ _

/-- R210: every host input keeps two like machines alike. -/
theorem sameLengthsNext_transact (input : HostInput) : SameLengthsNext (transact input s) (transact input t) := by
  cases input with
  | read idx => exact .of_next rfl rfl (sameLengths_regRead h idx)
  | write idx w => exact sameLengthsNext_regWrite h idx w
  | hardReset => exact .of_next rfl rfl (CoreState.sameLengths_refl _)

end Inputs

/-- Settles O52: the two machines take the same input, and every input keeps them alike. -/
theorem faultsIgnoreBitValues : Obligations.FaultsIgnoreBitValues := by
  intro s t s' t' hpending h hs ht
  rcases hp : t.pending with _ | ⟨input, rest⟩
  case nil =>
    cases (step_nil s (hpending.trans hp)).symm.trans hs
    cases (step_nil t hp).symm.trans ht
    exact h
  case cons =>
    rw [step_cons s (hpending.trans hp)] at hs
    rw [step_cons t hp] at ht
    exact sameLengthsNext_transact (s := s.withPending rest) (t := t.withPending rest) h input s' t' hs ht

end Sys2Proof.Machine
end

section
/-! Two port writes of one vector register, one after the other (R57, R58), and the reset values (R34). The obligations on
the order of length and data and on reset follow. -/

namespace Sys2Proof

/-- R58: a data word written into the empty vector is lost. -/
theorem Vec.setWord_of_len_zero {v : Vec} (h : v.len = 0) (j : Nat) (w : Word) : v.setWord j w = v :=
  Vec.ext_pos rfl fun p hp => absurd hp (by simp [h])

/-- R57: every position an empty vector gains is 0. -/
theorem Vec.resize_of_len_zero {v : Vec} (h : v.len = 0) (n : Nat) : v.resize n = Vec.zero n := by
  refine Vec.ext_pos rfl fun p _ => ?_
  rw [Vec.resize_pos, v.pos_of_len_le (h ▸ p.zero_le), Vec.zero_pos, ite_self]

/-- R243: positions dropped by the first of two length writes do not come back with the second. -/
theorem Vec.resize_resize_pos (v : Vec) {m n : Nat} (h : m ≤ n) (i : Nat) :
    ((v.resize m).resize n).pos i = if i < m then v.pos i else false := by
  rw [Vec.resize_pos, Vec.resize_pos]
  by_cases hi : i < m
  · rw [if_pos (hi.trans_le h)]
  · rw [if_neg hi, ite_self]

end Sys2Proof

namespace Sys2Proof.Machine

open Sys2Proof

/-- R57, R58: `w` written to the register `r` rewrites `V[i]` by `f`, and nothing else. -/
def RewritesVec (r : PortReg) (w : Word) (i : Fin 8) (f : Vec → Vec) : Prop :=
  ∀ c, writeData r w c = c.setVec i (f (c.vec i))

/-- R57: a length within the capacity. -/
theorem rewritesVec_vlen {n : Word} (h : n.toNat ≤ 128) (i : Fin 8) :
    RewritesVec (.vlen i) n i fun v => v.resize n.toNat := writeVlen_of_le h i

/-- R58: a data word. -/
theorem rewritesVec_vdata (i : Fin 8) (j : Fin 4) (w : Word) :
    RewritesVec (.vdata i j) w i fun v => v.setWord j.val w := fun _ => rfl

section Steps

variable {s : State} {idx idx' : PortIndex} {r r' : PortReg} {w w' : Word} {rest : List HostInput} {i : Fin 8}
  {f g : Vec → Vec}

/-- R57, R58: the step of a running CORE that takes such a write. -/
theorem step_rewriteVec (hp : s.pending = .write idx w :: rest) (hrun : s.core.fault = none) (hidx : portReg idx = r)
    (hr : r.access = .readWrite) (hf : RewritesVec r w i f) :
    step s = .next { s with core := s.core.setVec i (f (s.core.vec i)), pending := rest } := by
  rw [step_writeData hp hrun hidx hr, hf]

/-- R57, R58: two such writes leave the second's vector of the first's, and the rest as it was. -/
theorem steps_rewriteVec (hp : s.pending = .write idx w :: .write idx' w' :: rest) (hrun : s.core.fault = none)
    (hidx : portReg idx = r) (hidx' : portReg idx' = r') (hr : r.access = .readWrite) (hr' : r'.access = .readWrite)
    (hf : RewritesVec r w i f) (hg : RewritesVec r' w' i g) :
    ∃ t, step s = .next t ∧
      step t = .next { s with core := s.core.setVec i (g (f (s.core.vec i))), pending := rest } := by
  refine ⟨_, step_rewriteVec hp hrun hidx hr hf, (step_rewriteVec rfl ?_ hidx' hr' hg).trans ?_⟩
  · exact hrun
  · rw [CoreState.setVec_vec_same, CoreState.setVec_setVec]

end Steps

/-- Settles O45: the two writes compose on `V[i]`; a data word has no position in an empty vector, and a length write fills
what it gains with zeros. -/
theorem lengthBeforeData : Obligations.LengthBeforeData := by
  refine ⟨fun s i j w n rest hrun hempty hn => ⟨fun hp => ?_, fun hp => ?_⟩, fun s i m n rest hrun hmn hn hp => ?_,
    fun v j n w hempty i => ?_, fun v m n hmn => v.resize_resize_pos hmn⟩
  · have hsteps := steps_rewriteVec hp hrun (portReg_vdata_window i j) (portReg_vlen_window i) rfl rfl
      (rewritesVec_vdata i j w) (rewritesVec_vlen hn i)
    rwa [Vec.setWord_of_len_zero hempty, Vec.resize_of_len_zero hempty] at hsteps
  · obtain ⟨t, ht, ht'⟩ := steps_rewriteVec hp hrun (portReg_vlen_window i) (portReg_vdata_window i j) rfl rfl
      (rewritesVec_vlen hn i) (rewritesVec_vdata i j w)
    refine ⟨t, _, ht, ht', rfl, fun p hpn => ?_⟩
    simp only [Vec.resize_of_len_zero hempty, Vec.setWord_pos, Vec.zero_len, Vec.zero_pos, hpn, true_and]
  · obtain ⟨t, ht, ht'⟩ := steps_rewriteVec hp hrun (portReg_vlen_window i) (portReg_vlen_window i) rfl rfl
      (rewritesVec_vlen (hmn.trans hn) i) (rewritesVec_vlen hn i)
    exact ⟨t, _, ht, ht', rfl, fun p _ => Vec.resize_resize_pos _ hmn p⟩
  · rw [Vec.setWord_of_len_zero hempty, Vec.resize_of_len_zero hempty, Vec.zero_pos]

/-- R34: every vector register is empty after reset. -/
@[simp] theorem CoreState.reset_vec (i : Fin 8) : CoreState.reset.vec i = Vec.empty :=
  Vector.getElem_replicate i.isLt

/-- Settles O47: R34's table, one register after the other. -/
theorem resetValues : Obligations.ResetValues :=
  ⟨fun i => congrArg Vec.len (CoreState.reset_vec i), rfl, rfl, rfl, rfl, rfl, rfl, rfl, rfl, rfl, rfl, rfl, rfl, rfl, rfl⟩

end Sys2Proof.Machine
end
